-- ==== Sys2Proof/Word.lean ====
section
/-! DEFINITION. Word.lean: the one data width of the block (rules R6, R7, R33).
Every datum in a payload or a frame is one byte; lengths and indexes are natural numbers. -/

namespace Sys2Proof

/-- A byte is 8 bits (R6, R30). -/
abbrev Byte := BitVec 8

end Sys2Proof
end

