-- ==== Sys2Proof/Syntax.lean ====
section
/-! DEFINITION. Syntax.lean: the instructions (one constructor per row of spec/opcode_table.json), the words that
encode them, and the blocks of a frame (30_encoding.md). -/

namespace Sys2Proof

/-- The eight rows of the opcode table: four command words (format `CMD`, R45) and the four classes of a byte at a
header position of a frame (format `LEN`, R50, R56). -/
inductive Instr where
  /-- SIZE, `OP = 0` (R66). -/
  | size
  /-- ENCODE, `OP = 1` (R79). -/
  | encode
  /-- DECODE, `OP = 2` (R104). -/
  | decode
  /-- CMD_RESERVED, `OP = 3` (R57). -/
  | cmdReserved
  /-- LEN_TERM: `0x00` at the last index of the input (R94). -/
  | lenTerm
  /-- LEN_ZERO_ILLEGAL: `0x00` at an earlier index (R95). -/
  | lenZeroIllegal
  /-- LEN_FULL: `0xFF`, a block of 254 data bytes with no implied separator (R97, R101). -/
  | lenFull
  /-- LEN_BLK: `n` in 1 to 254, a short block of `n - 1` data bytes (R97, R101). -/
  | lenBlk (n : Byte)
deriving DecidableEq, Repr

/-- A word of one of the two formats: a command word, or the byte at a header position together with the position
condition of R50 (is it the last byte of the input?). -/
inductive Code where
  /-- The 2-bit value written to `CMD` (R45). -/
  | cmd (op : BitVec 2)
  /-- The byte at a header position; `last`: it stands at index `ILEN - 1` (R50). -/
  | len (b : Byte) (last : Bool)
deriving DecidableEq, Repr

/-- Why no instruction is read at a place. -/
inductive Reject where
  /-- No byte is left where a length byte is expected (R93). -/
  | exhausted
deriving DecidableEq, Repr

/-- A block of a frame: the length byte's value and the data bytes (R48, R70). -/
structure Block where
  /-- The length byte `n`. -/
  n : Nat
  /-- The data bytes `d_1 .. d_(n-1)`. -/
  data : List Byte
deriving DecidableEq, Repr

/-- The two failure causes, the whole taxonomy (R115). -/
inductive Cause where
  /-- "a length byte claims more data bytes than remain in the buffer" (R96, R116). -/
  | truncatedFrame
  /-- "a zero-valued length byte encountered where a block header is expected" (R95, R117). -/
  | invalidLengthByte
deriving DecidableEq, Repr

/-- A result of `parse` or `dec`: `Ok(value)` or `Fail(cause, pos)` (R9). -/
inductive Res (α : Type) where
  /-- `Ok(value)`. -/
  | ok (value : α)
  /-- `Fail(cause, pos)`: `pos` is the index of the offending length byte. -/
  | fail (cause : Cause) (pos : Nat)
deriving DecidableEq, Repr

end Sys2Proof
end

