-- ==== Sys2Proof/WellFormed.lean ====
section
/-! DEFINITION. WellFormed.lean: which terms are instructions of the block (R48, R50) and which blocks belong to a
well-formed frame (R51). -/

namespace Sys2Proof

/-- Only LEN_BLK has an operand; the table gives it the range 1 to 254 (R50, R56). -/
def Instr.wf : Instr → Bool
  | .lenBlk n => decide (1 ≤ n.toNat) && decide (n.toNat ≤ 254)
  | .size | .encode | .decode | .cmdReserved | .lenTerm | .lenZeroIllegal | .lenFull => true

/-- "every block's length byte satisfies `1 ≤ n ≤ 255`; the `n-1` bytes following it contain no zero" (R51). -/
def Block.wf (b : Block) : Bool :=
  decide (1 ≤ b.n) && decide (b.n ≤ 255) && decide (b.data.length = b.n - 1) && b.data.all (fun x => decide (x ≠ 0#8))

end Sys2Proof
end

