-- ==== Sys2Proof/Decode.lean ====
section
/-! DEFINITION. Decode.lean: the decoder of both formats, total on every word (R45, R50, R56), and after it the
encoder, written from the same tables. -/

namespace Sys2Proof

/-! ## Decoding -/

/-- The command word: `OP = CMD[1:0]` (R45). Every 2-bit value is some row of the table. -/
def decodeCmd (op : BitVec 2) : Instr :=
  if op = 0#2 then .size
  else if op = 1#2 then .encode
  else if op = 2#2 then .decode
  else .cmdReserved

/-- The byte at a header position, matched in the table's order LEN_TERM, LEN_ZERO_ILLEGAL, LEN_FULL, LEN_BLK
(R50, R56); `last`: it stands at the last index of the input. -/
def decodeLen (b : Byte) (last : Bool) : Instr :=
  if b = 0#8 then (if last then .lenTerm else .lenZeroIllegal)
  else if b = 255#8 then .lenFull
  else .lenBlk b

/-- The instruction a word stands for. -/
def decodeCode : Code → Instr
  | .cmd op => decodeCmd op
  | .len b last => decodeLen b last

/-- The item at the front of the remaining bytes of a frame; only the empty list is rejected (R60, R93). -/
def decodeHeader : List Byte → Except Reject Instr
  | [] => .error .exhausted
  | [b] => .ok (decodeLen b true)
  | b :: _ :: _ => .ok (decodeLen b false)

/-- The low `k` bytes of `w`, the least significant first. -/
def leBytes : Nat → Nat → List Byte
  | 0, _ => []
  | k + 1, w => BitVec.ofNat 8 w :: leBytes k (w / 256)

/-- Is the table's word a command word? Both formats fit one byte: a one-byte word below 4 is read as the 2-bit
command, anything else as an item of a frame. DESIGN CHOICE (notes/assumptions/11.md). -/
def isCmdWord (nbits w : Nat) : Bool := decide (nbits ≤ 8) && decide (w < 4)

/-- The instruction the decoder reads from a word as spec/opcode_table.json numbers its bits. -/
def decodeTableWord (nbits w : Nat) : Option Instr :=
  if nbits = 0 ∨ 2 ^ nbits ≤ w then none
  else if isCmdWord nbits w then some (decodeCmd (BitVec.ofNat 2 w))
  else (decodeHeader (leBytes ((nbits + 7) / 8) w)).toOption

/-! ## Encoding -/

/-- The word of an instruction, from the same tables (R45, R50). For LEN_FULL and LEN_BLK the position condition
plays no part; the encoder gives the position of a block that is followed by more bytes. -/
def encode : Instr → Code
  | .size => .cmd 0#2
  | .encode => .cmd 1#2
  | .decode => .cmd 2#2
  | .cmdReserved => .cmd 3#2
  | .lenTerm => .len 0#8 true
  | .lenZeroIllegal => .len 0#8 false
  | .lenFull => .len 255#8 false
  | .lenBlk n => .len n false

/-- The word's value, without the position condition. -/
def codeBits : Code → Nat
  | .cmd op => op.toNat
  | .len b _ => b.toNat

/-- The column `match` of the table's row. -/
def tableMatch : Instr → Nat
  | .size => 0x0
  | .encode => 0x1
  | .decode => 0x2
  | .cmdReserved => 0x3
  | .lenTerm => 0x00
  | .lenZeroIllegal => 0x00
  | .lenFull => 0xFF
  | .lenBlk _ => 0x00

/-- The column `mask` of the table's row. -/
def tableMask : Instr → Nat
  | .size | .encode | .decode | .cmdReserved => 0x3
  | .lenTerm | .lenZeroIllegal | .lenFull => 0xFF
  | .lenBlk _ => 0x00

/-- Is the row of format `CMD`? -/
def isCommand : Instr → Bool
  | .size | .encode | .decode | .cmdReserved => true
  | .lenTerm | .lenZeroIllegal | .lenFull | .lenBlk _ => false

end Sys2Proof
end

