-- ==== Sys2Proof/Config.lean ====
section
/-! DEFINITION. Config.lean: what is fixed for one core, and the free values.
`Config` holds the open parameter `NMAX` (R4, D3) and the platform's choice about reading `IBUF` back (R17, U14).
The two `opaque` constants are the bytes the spec leaves unspecified (R18, R26, R122, R141): nothing can evaluate them. -/

namespace Sys2Proof

/-- The parameters of one core. They are no registers (R25): no step changes them.
A state carries them because `step` takes nothing but a state (notes/assumptions/1.md). -/
structure Config where
  /-- `NMAX`, the largest payload length ENCODE accepts (R4); `FMAX` and `LW` are computed from it (R5). -/
  nmax : Nat
  /-- Does the platform let the host read `IBUF` back? "not decided" by R17; U14 refuses the read unless it does. -/
  ibufReadable : Bool
deriving DecidableEq, Repr

/-- The parameters of the spec's own programs: `NMAX = 510` (95_test_vectors.md, Part 3).
DESIGN CHOICE: only `State.reset` uses it (notes/assumptions/1.md, notes/assumptions/2.md). -/
def Config.standard : Config := { nmax := 510, ibufReadable := false }

/-- FREE VALUE. The byte at index `i` of `IBUF` when the host has not written it since the reset numbered `draw`
(R26, R135, R141, U9). That it is a function of the reset count and the index alone is the model's: DESIGN CHOICE, unsafe
for a claim that compares two cores or two runs (notes/assumptions/21.md). -/
opaque Config.freeIbuf (draw i : Nat) : Byte

/-- FREE VALUE. The byte at index `i` of `OBUF` where the spec leaves it unspecified; `draw` counts how often the
contents became unspecified (R18, R26, R122, R135, U7, U8). That it is a function of these two alone is the model's:
DESIGN CHOICE, unsafe for a claim that compares two cores or two runs (notes/assumptions/21.md). -/
opaque Config.freeObuf (draw i : Nat) : Byte

end Sys2Proof
end

