-- ==== Sys2Proof/Machine/Codec.lean ====
section
/-! DEFINITION. Machine/Codec.lean: the normative functions over byte sequences: the size estimator and the
parameters computed from it, the framer and the encoder, the parser and the decoder, and the notions the spec's
properties are stated in. The register-level machine (CmdEncode.lean, LenItems.lean) realises them. -/

namespace Sys2Proof.Machine

/-! ## The size estimator and the parameters -/

/-- `esize(n) = n + ceil(n / 254) + 1` (R65); not the integer-division form (90_conflicts.md C2). -/
def esize (n : Nat) : Nat := n + (n + 253) / 254 + 1

/-- `FMAX = esize(NMAX)`, the capacity of each buffer (R5). -/
def fmax (c : Config) : Nat := esize c.nmax

/-- `LW`, the least natural number with `2^LW > FMAX` (R5). -/
def lw (c : Config) : Nat := (fmax c).log2 + 1

/-! ## The framer and the encoder -/

/-- The runs of a non-empty payload (R8). The value at the empty list only ends the recursion: `blocks` does not
apply `split0` to the empty payload. -/
def split0 : List Byte → List (List Byte)
  | [] => [[]]
  | b :: p =>
    if b = 0#8 then [] :: split0 p
    else match split0 p with
      | [] => [[b]]
      | r :: rs => (b :: r) :: rs

/-- `chunk` with a bound on its depth: a full block while MORE than 254 bytes are left, then the final block
(R71, R73, R74). -/
def chunkFuel : Nat → List Byte → List Block
  | 0, r => [⟨r.length + 1, r⟩]
  | k + 1, r =>
    if r.length > 254 then ⟨255, r.take 254⟩ :: chunkFuel k (r.drop 254)
    else [⟨r.length + 1, r⟩]

/-- The blocks of one zero-free run (R71). -/
def chunk (r : List Byte) : List Block := chunkFuel r.length r

/-- `blocks(p)` (R71): no block at all for the empty payload (90_conflicts.md C8). -/
def blocks (p : List Byte) : List Block :=
  if p = [] then [] else (split0 p).flatMap chunk

/-- `ser`: each block's length byte, then its data (R80). -/
def ser : List Block → List Byte
  | [] => []
  | b :: bs => BitVec.ofNat 8 b.n :: (b.data ++ ser bs)

/-- `enc(p)`: the serialised blocks, then the terminator (R80). -/
def enc (p : List Byte) : List Byte := ser (blocks p) ++ [0#8]

/-- One byte of the byte-serial formulation (R81): the output so far (whose length is `wp`), the code position `cp` and
the count `c` of data bytes in the open block. The byte put where a length byte will come is back-patched. -/
def serialByte (a : List Byte × Nat × Nat) (b : Byte) : List Byte × Nat × Nat :=
  match a with
  | (out, cp, c) =>
    if b = 0#8 then (out.set cp (BitVec.ofNat 8 (c + 1)) ++ [0#8], out.length, 0)
    else if c = 254 then (out.set cp 255#8 ++ [0#8, b], out.length, 1)
    else (out ++ [b], cp, c + 1)

/-- The byte-serial encoder (R81), equal to `enc` by the spec's own argument. -/
def encSerial (p : List Byte) : List Byte :=
  if p = [] then [0#8]
  else match p.foldl serialByte ([0#8], 0, 0) with
    | (out, cp, c) => out.set cp (BitVec.ofNat 8 (c + 1)) ++ [0#8]

/-! ## The parser and the decoder -/

/-- `go(c, acc)` of R91, with a bound on its depth; the tests are made in the rule's order. -/
def parseGo (f : List Byte) : Nat → Nat → List Block → Res (List Block)
  | 0, _, acc => .ok acc
  | k + 1, c, acc =>
    if c = f.length then .ok acc
    else
      let n := (f.getD c 0#8).toNat
      if n = 0 ∧ c = f.length - 1 then .ok acc
      else if n = 0 then .fail .invalidLengthByte c
      else if n - 1 > f.length - (c + 1) then .fail .truncatedFrame c
      else parseGo f k (c + n) (acc ++ [⟨n, (f.drop (c + 1)).take (n - 1)⟩])

/-- `parse(f) = go(0, [])` (R91). Each accepted block moves the cursor by at least 1, so `len(f) + 1` calls are enough
(R99). -/
def parse (f : List Byte) : Res (List Block) := parseGo f (f.length + 1) 0 []

/-- `out_1 ++ ... ++ out_m` (R101): a short block is followed by one zero unless it is the last block. -/
def payloadOf : List Block → List Byte
  | [] => []
  | [b] => b.data
  | b :: b' :: bs => b.data ++ (if b.n < 255 then [0#8] else []) ++ payloadOf (b' :: bs)

/-- `dec(f)` (R103). -/
def dec (f : List Byte) : Res (List Byte) :=
  match parse f with
  | .fail cause pos => .fail cause pos
  | .ok bs => .ok (payloadOf bs)

/-! ## The notions the spec's properties use -/

/-- `WF(f)`: serialised well-formed blocks and one terminator (R51). -/
def wfFrame (f : List Byte) : Prop := ∃ bs : List Block, (∀ b ∈ bs, b.wf = true) ∧ f = ser bs ++ [0#8]

/-- `hb(L)`, the number of blocks of a run of length `L` (R76). -/
def hb (L : Nat) : Nat := if L = 0 then 1 else (L + 253) / 254

/-- A run whose length is a positive multiple of 254: the separator after it leaves no trace (R87, R111). -/
def losesSeparator (r : List Byte) : Bool := decide (0 < r.length) && decide (r.length % 254 = 0)

/-- Round-trip safe (R111): no run but the last loses its separator. -/
def roundTripSafe (p : List Byte) : Bool := (split0 p).dropLast.all (fun r => !losesSeparator r)

/-- The runs joined again by their separators, without those that leave no trace. -/
def joinKept : List (List Byte) → List Byte
  | [] => []
  | [r] => r
  | r :: r' :: rs => r ++ (if losesSeparator r then [] else [0#8]) ++ joinKept (r' :: rs)

/-- `p'` of R112: `p` without every zero byte that directly follows a maximal zero-free stretch of
positive-multiple-of-254 length. -/
def withoutLost (p : List Byte) : List Byte := joinKept (split0 p)

end Sys2Proof.Machine
end

