-- ==== Sys2Proof/Machine/State.lean ====
section
/-! DEFINITION. Machine/State.lean: the state of one core (10_state.md), the host's moves (70_reset_and_hazards.md R151)
waiting to be made, the reasons a step can stop, and the state after reset (R26). -/

namespace Sys2Proof.Machine



/-- The operation a start selects; it "cannot change during the operation" (R41). -/
inductive Op where
  | size
  | encode
  | decode
deriving DecidableEq, Repr

/-- `STATUS` (R15). The selector `CMD.OP` is held here, exactly from the start to the completion: `CMD` "keeps no
readable value and has no reset value" (R14). -/
inductive Status where
  /-- 0: no command since reset. -/
  | idle
  /-- 1: the operation `op` has started and not completed. -/
  | busy (op : Op)
  /-- 2: the last command completed without failure. -/
  | doneOk
  /-- 3: the last command was a DECODE and its frame was malformed. -/
  | doneFail
deriving DecidableEq, Repr

/-- `ERR` (R16); the code 3 is never written. -/
inductive ErrCode where
  | none
  | truncated
  | invalidLen
deriving DecidableEq, Repr

/-- The contents of a buffer: index and byte, indexes strictly rising. An index that is not listed has NO value of
its own; a read of it gives the free byte (`readIbuf`, `readObuf` of Machine/Ops.lean). -/
abbrev Memory := List Host.Cell

/-- A block as the framer and the parser hand it to the writers: `(n, start, cnt)`, the data being
`IBUF[start .. start + cnt)` (R70, R97). -/
structure BlockRef where
  n : Nat
  start : Nat
  cnt : Nat
deriving DecidableEq, Repr

/-- The registers the host can read (R10, R151). -/
inductive ReadReg where
  | status
  | olen
  | sres
  | err
  | epos
  | ilen
  | sarg
deriving DecidableEq, Repr

/-- The host's moves: the table of R151, and the two ways of letting the core go on that a schedule needs. -/
inductive HostMove where
  /-- Write `IBUF[i]`. -/
  | wrIbuf (i : Nat) (b : Byte)
  /-- Write `ILEN`. -/
  | wrIlen (v : Nat)
  /-- Write `SARG`. -/
  | wrSarg (v : Nat)
  /-- Write `CMD` (R46). -/
  | cmd (op : BitVec 2)
  /-- Read a register. -/
  | rd (r : ReadReg)
  /-- Read `OBUF[i]`. -/
  | rdObuf (i : Nat)
  /-- Read `IBUF[i]`, on a platform that grants it (R17, U14). -/
  | rdIbuf (i : Nat)
  /-- `WAIT`: read `STATUS` until it is not BUSY (R62). -/
  | wait
  /-- The host makes no move at this step; the core may go on. -/
  | pass
  /-- Assert `RST` (R135). -/
  | rst
deriving DecidableEq, Repr

/-- What a read move gave the host. -/
inductive HostGot where
  | reg (r : ReadReg) (v : Nat)
  | obuf (i : Nat) (b : Byte)
  | ibuf (i : Nat) (b : Byte)
deriving DecidableEq, Repr

/-- The state of one core (R10): the host-visible registers, the two buffers, the working registers; and beside them
the model's own fields: the parameters, the host's pending moves and what it has read, two counters of free values. -/
structure State where
  /-- MODEL'S OWN. The core's parameters, which no step changes (R4, R25). -/
  cfg : Config
  /-- `ILEN`, `LW` bits (R11). -/
  ilen : Nat
  /-- `OLEN`, `LW` bits (R12). -/
  olen : Nat
  /-- `SARG`, `LW` bits (R13). -/
  sarg : Nat
  /-- `SRES`, `LW + 1` bits (R13). -/
  sres : Nat
  /-- `STATUS`, 2 bits, and with BUSY the selector written to `CMD` (R14, R15). -/
  status : Status
  /-- `ERR`, 2 bits (R16). -/
  err : ErrCode
  /-- `EPOS`, `LW` bits (R16). -/
  epos : Nat
  /-- `IBUF[0..FMAX)` (R17): the bytes the host has written since reset. -/
  ibuf : Memory
  /-- `OBUF[0..FMAX)` (R18): the bytes that are specified. -/
  obuf : Memory
  /-- `fp`, `LW` bits: the framer's position (R23). -/
  fp : Nat
  /-- `fdone`, 1 bit: the framer has emitted its last block (R23). -/
  fdone : Bool
  /-- `rp`, `LW` bits: the parser's cursor (R20). -/
  rp : Nat
  /-- `wp`, `LW` bits: the write index into `OBUF` (R21). -/
  wp : Nat
  /-- `pend`, 1 bit: a separator is owed if another block follows (R22). -/
  pend : Bool
  /-- MODEL'S OWN. The moves the host is about to make, the next one first. -/
  host : List HostMove
  /-- MODEL'S OWN. What the host's reads have given, the latest first. -/
  got : List HostGot
  /-- MODEL'S OWN. Counts the resets: the first argument of `Config.freeIbuf`. -/
  ibufDraw : Nat
  /-- MODEL'S OWN. Counts how often bytes of `OBUF` became unspecified: the first argument of `Config.freeObuf`. -/
  obufDraw : Nat
deriving DecidableEq, Repr

/-- Why the core stops. Both are safe, and no state that a run reaches raises one (R34). -/
inductive Fault where
  /-- Raised by ENCODE's and DECODE's steps: the core would read `IBUF` at an index of `FMAX` or more, which does not
  exist (R30, R34). Safe. -/
  | ibufIndexOutside
  /-- Raised by the frame writer and the payload writer: the core would write `OBUF` at an index of `FMAX` or more,
  which does not exist (R30, R34). Safe. -/
  | obufIndexOutside
deriving DecidableEq, Repr

/-- What the spec gives no meaning: "a model refuses it". All are safe but `hostMoveWhileBusy`
(notes/assumptions/9.md). -/
inductive Refusal where
  /-- Raised by `exec` for an instruction that has no meaning yet. Safe. -/
  | notModelled (mnemonic : String)
  /-- Raised by CMD_RESERVED: a write of 3 to `CMD` (R57, U2). Safe. -/
  | reservedCommand
  /-- Raised by SIZE, ENCODE and DECODE: a write to `CMD` while `STATUS = BUSY` (R129, R143, U4). Safe. -/
  | commandWhileBusy
  /-- Raised by ENCODE: `ILEN > NMAX` (R143, U3). Safe. -/
  | payloadTooLong
  /-- Raised by DECODE: `ILEN > FMAX` (R143, U3). Safe. -/
  | frameTooLong
  /-- Raised by the four LEN rows outside their table condition: no DECODE stands at such a header position (R56).
  Safe: no step does it. -/
  | notAtHeader
  /-- Raised by a host move other than a read of `STATUS` or `RST` while `STATUS = BUSY` (R144, U5). UNSAFE if a real
  host breaks the rule. -/
  | hostMoveWhileBusy
  /-- Raised by a host access at an index of `FMAX` or more (R34, U6). Safe. -/
  | indexOutsideBuffer
  /-- Raised by a host write of a number that the register's `LW` bits cannot hold (R7, R11, R13). Safe. -/
  | valueTooWide
  /-- Raised by a host read of `IBUF` on a platform that does not grant it (R17, U14). Safe. -/
  | ibufNotReadable
deriving DecidableEq, Repr

/-- The three outcomes of a step of this machine. -/
abbrev Out := Host.Outcome State Fault Refusal

/-- The state after reset of a core with the parameters `c` (R26). The spec states STATUS, ERR, EPOS, ILEN, OLEN, SARG
and SRES; the working registers are unspecified there and hold 0 here: DESIGN CHOICE (notes/assumptions/4.md). Nothing is
listed in the buffers: their contents are unspecified. -/
def State.resetWith (c : Config) : State where
  cfg := c
  ilen := 0
  olen := 0
  sarg := 0
  sres := 0
  status := .idle
  err := .none
  epos := 0
  ibuf := []
  obuf := []
  fp := 0
  fdone := false
  rp := 0
  wp := 0
  pend := false
  host := []
  got := []
  ibufDraw := 0
  obufDraw := 0

/-- The machine right after reset (R26), with the parameters of the spec's own programs
(DESIGN CHOICE, notes/assumptions/1.md). -/
def State.reset : State := State.resetWith Config.standard

end Sys2Proof.Machine
end

