-- ==== Sys2Proof/Machine/Flags.lean ====
section
/-! DEFINITION. Machine/Flags.lean: the status flags of the block (R15, R16): their codes, and what a start writes
to them (R46). No operation reads them but the test for BUSY. -/

namespace Sys2Proof.Machine

/-- The value of `STATUS` (R15). -/
def statusCode : Status → BitVec 2
  | .idle => 0#2
  | .busy _ => 1#2
  | .doneOk => 2#2
  | .doneFail => 3#2

/-- The done flag, bit 1 of `STATUS` (R15). -/
def doneFlag (st : Status) : Bool := (statusCode st).getLsbD 1

/-- The failure flag: bit 0 of `STATUS` when the done flag is set (R15, R119). -/
def failFlag (st : Status) : Bool := doneFlag st && (statusCode st).getLsbD 0

/-- The value of `ERR` (R16, R115). -/
def errCode : ErrCode → BitVec 2
  | .none => 0#2
  | .truncated => 1#2
  | .invalidLen => 2#2

/-- The code a failure cause writes to `ERR` (R115). -/
def causeErr : Cause → ErrCode
  | .truncatedFrame => .truncated
  | .invalidLengthByte => .invalidLen

/-- `STATUS = BUSY`. -/
def isBusy (s : State) : Bool :=
  match s.status with
  | .busy _ => true
  | .idle | .doneOk | .doneFail => false

/-- The part of a start common to every command: `STATUS <- BUSY; ERR <- 0; EPOS <- 0` (R46). -/
def startFlags (op : Op) (s : State) : State :=
  { s with status := .busy op, err := .none, epos := 0 }

end Sys2Proof.Machine
end

