-- ==== Sys2Proof/Machine/Ops.lean ====
section
/-! DEFINITION. Machine/Ops.lean: the named operations over the two buffers and the registers (20_memory.md), the start
guard (R143), failure entry (R122) and the delivery of a result (R79, R104). -/

namespace Sys2Proof.Machine

/-! ## The contents of a buffer -/

/-- The byte listed at an index, if there is one. -/
def Memory.get? : Memory → Nat → Option Byte
  | [], _ => none
  | c :: m, a => bif Nat.beq a c.1 then some c.2 else bif Nat.blt a c.1 then none else Memory.get? m a

/-- Forget every index at or above `n`: those bytes become unspecified. -/
def Memory.keepBelow : Memory → Nat → Memory
  | [], _ => []
  | c :: m, n => bif Nat.blt c.1 n then c :: Memory.keepBelow m n else []

/-- Forget every index below `n`. -/
def Memory.dropBelow : Memory → Nat → Memory
  | [], _ => []
  | c :: m, n => bif Nat.blt c.1 n then Memory.dropBelow m n else c :: m

/-- Consecutive bytes from an index on. -/
def Memory.cellsFrom : Nat → List Byte → Memory
  | _, [] => []
  | a, b :: bs => (a, b) :: Memory.cellsFrom (a + 1) bs

/-- List consecutive bytes from an index on, keeping the indexes strictly rising. -/
def Memory.writeList (m : Memory) (a : Nat) (bs : List Byte) : Memory :=
  m.keepBelow a ++ (Memory.cellsFrom a bs ++ m.dropBelow (a + bs.length))

/-- List a byte at an index. -/
def Memory.write (m : Memory) (a : Nat) (b : Byte) : Memory := m.writeList a [b]

/-- The canonical form: indexes strictly rising. (What an unlisted index reads as is no value, so no entry can be
equal to it.) -/
def Memory.wf : Memory → Bool
  | [] => true
  | [_] => true
  | (a, _) :: (b, y) :: m => decide (a < b) && Memory.wf ((b, y) :: m)

/-! ## Reading and writing the buffers -/

/-- `MemRead(IBUF, i, 1)` (R9, R35). A byte the host has not written since reset is a free value (R141, U9); two cores
with equal draws read the same one: DESIGN CHOICE (notes/assumptions/5.md, notes/assumptions/21.md). -/
def readIbuf (s : State) (i : Nat) : Byte := (s.ibuf.get? i).getD (Config.freeIbuf s.ibufDraw i)

/-- The read of `OBUF[i]`. A byte that is unspecified is a free value (R18, R145, U7, U8); two cores with equal
draws read the same one: DESIGN CHOICE (notes/assumptions/6.md, notes/assumptions/21.md). -/
def readObuf (s : State) (i : Nat) : Byte := (s.obuf.get? i).getD (Config.freeObuf s.obufDraw i)

/-- `IBUF[start .. start + cnt)`. -/
def readSlice (s : State) (start cnt : Nat) : List Byte := (List.range' start cnt).map (readIbuf s)

/-- `OBUF[0..OLEN)`, the result (R18). -/
def result (s : State) : List Byte := (List.range' 0 s.olen).map (readObuf s)

/-- The state after `bs` has been written to `OBUF` at `wp` and `wp` moved past it. -/
def appended (bs : List Byte) (s : State) : State :=
  { s with obuf := s.obuf.writeList s.wp bs, wp := s.wp + bs.length }

/-- `MemWrite(OBUF, wp + i, 1, bs[i])` for every `i`, then `wp <- wp + len(bs)` (R77, R78, R100). An index of `FMAX` or
more does not exist (R34). -/
def appendObuf (bs : List Byte) (s : State) : Out :=
  if s.wp + bs.length ≤ fmax s.cfg then .next (appended bs s) else .fault .obufIndexOutside

/-- Go on from a next state; a stop stays a stop. -/
def andThen (o : Out) (k : State → Out) : Out :=
  match o with
  | .next s => k s
  | .fault r => .fault r
  | .refused r => .refused r

/-! ## Start, failure entry, delivery -/

/-- The guard of every start: no command while BUSY (R129, R143). -/
def ifReady (s : State) (k : Out) : Out := if isBusy s then .refused .commandWhileBusy else k

/-- FAILURE ENTRY, `raise <Cause>(pos)` (R122): the only exception the block has. `STATUS`, `ERR`, `EPOS` and `OLEN` are
written and all of `OBUF` becomes unspecified. There is no return: the next start clears the flags (R125, `startFlags`). -/
def raiseFailure (cause : Cause) (pos : Nat) (s : State) : State :=
  { s with
    status := .doneFail
    err := causeErr cause
    epos := pos
    olen := 0
    obuf := []
    obufDraw := s.obufDraw + 1 }

/-- The successful completion of ENCODE and DECODE: `OLEN <- wp; STATUS <- DONE_OK` (R79, R104), and
`OBUF[OLEN..FMAX)` becomes unspecified (R18). -/
def deliver (s : State) : State :=
  { s with
    olen := s.wp
    status := .doneOk
    obuf := s.obuf.keepBelow s.wp
    obufDraw := s.obufDraw + 1 }

end Sys2Proof.Machine
end

