-- ==== Sys2Proof/Machine/Operands.lean ====
section
/-! DEFINITION. Machine/Operands.lean: the operands of the commands and of the items of a frame, and how a length
byte is taken apart and built (30_encoding.md section 3). -/

namespace Sys2Proof.Machine

/-- The operand of ENCODE (a payload) and of DECODE (a frame): `IBUF[0..ILEN)` (R11). -/
def operand (s : State) : List Byte := readSlice s 0 s.ilen

/-- The data count of a length byte: `cnt = n - 1` (R54). -/
def dataCount (n : Nat) : Nat := n - 1

/-- The class flag of a length byte: `short = (n < 255)` (R54). -/
def isShort (n : Nat) : Bool := decide (n < 255)

/-- The length byte of a block of `L` data bytes: `n = L + 1` (R55). -/
def lengthByteOf (L : Nat) : Nat := L + 1

/-- The parser stands at a header position: a DECODE is running and `rp < ILEN` (R50, R92). -/
def atHeader (s : State) : Bool := decide (s.status = .busy .decode) && decide (s.rp < s.ilen)

/-- The byte at the cursor is the last byte of the input: `rp = ILEN - 1` (R50, R94). -/
def atLastByte (s : State) : Bool := decide (s.rp + 1 = s.ilen)

/-- The byte that DECODE reads at its cursor (R104). -/
def headerByte (s : State) : Byte := readIbuf s s.rp

/-- The least index from `i` on, within the next `k`, that holds a zero; `i + k` if there is none. -/
def zeroFrom (s : State) : Nat → Nat → Nat
  | 0, i => i
  | k + 1, i => if readIbuf s i = 0#8 then i else zeroFrom s k (i + 1)

/-- `e` of R72: the least `i` with `fp <= i < ILEN` and `IBUF[i] = 0x00`, or `ILEN` if there is no such `i`. -/
def runEnd (s : State) : Nat := zeroFrom s (s.ilen - s.fp) s.fp

end Sys2Proof.Machine
end

