-- ==== Sys2Proof/Machine/CmdDecode.lean ====
section
/-! DEFINITION. Machine/CmdDecode.lean: the command DECODE (42_parser_decoder.md R104): its start. What the running
operation does at each header position is the meaning of the LEN rows (LenItems.lean). -/

namespace Sys2Proof.Machine

/-- What the start of DECODE writes (R19, R46, R104). -/
def startDecode (s : State) : State :=
  { startFlags .decode s with olen := 0, rp := 0, wp := 0, pend := false }

/-- DECODE, the write of 2 to `CMD`: the start (R46, R104); precondition `ILEN <= FMAX` (R143). -/
def execDecode (s : State) : Out :=
  ifReady s (if s.ilen ≤ fmax s.cfg then .next (startDecode s) else .refused .frameTooLong)

end Sys2Proof.Machine
end

