-- ==== Sys2Proof/Machine/CmdEncode.lean ====
section
/-! DEFINITION. Machine/CmdEncode.lean: the command ENCODE (41_framer_encoder.md R79): its start, the framer's step,
the frame writer, and the step of the running operation. -/

namespace Sys2Proof.Machine

/-- What the start of ENCODE writes (R19, R46, R79). -/
def startEncode (s : State) : State :=
  { startFlags .encode s with olen := 0, fp := 0, fdone := decide (s.ilen = 0), wp := 0 }

/-- ENCODE, the write of 1 to `CMD`: the start (R46, R79); precondition `ILEN <= NMAX` (R143). -/
def execEncode (s : State) : Out :=
  ifReady s (if s.ilen ≤ s.cfg.nmax then .next (startEncode s) else .refused .payloadTooLong)

/-- FRAME_NEXT (R72): the block emitted, EMIT_FULL (R73) or EMIT_FINAL (R74), and the framer's state after it (R75). -/
def frameNext (s : State) : BlockRef × State :=
  if runEnd s - s.fp > 254 then (⟨255, s.fp, 254⟩, { s with fp := s.fp + 254 })
  else
    (⟨lengthByteOf (runEnd s - s.fp), s.fp, runEnd s - s.fp⟩,
      if runEnd s = s.ilen then { s with fdone := true } else { s with fp := runEnd s + 1 })

/-- The blocks FRAME_NEXT emits, in order, until `fdone = 1` or `k` blocks have been emitted (R72). -/
def framed : Nat → State → List BlockRef
  | 0, _ => []
  | k + 1, s => if s.fdone then [] else (frameNext s).1 :: framed k (frameNext s).2

/-- The bytes WRITE_BLOCK writes: the length byte, then the data unchanged and in order (R78). -/
def blockBytes (s : State) (b : BlockRef) : List Byte := BitVec.ofNat 8 b.n :: readSlice s b.start b.cnt

/-- WRITE_BLOCK (R78). -/
def writeBlock (b : BlockRef) (s : State) : Out := appendObuf (blockBytes s b) s

/-- EMIT_TERM (R77): the terminator, the only zero byte ENCODE writes. -/
def emitTerm (s : State) : Out := appendObuf [0#8] s

/-- One step of a running ENCODE (R79): a block while `fdone = 0`, then the terminator and the completion. -/
def encodeStep (s : State) : Out :=
  if s.ilen ≤ fmax s.cfg then
    if s.fdone then andThen (emitTerm s) (fun t => .next (deliver t))
    else writeBlock (frameNext s).1 (frameNext s).2
  else .fault .ibufIndexOutside

end Sys2Proof.Machine
end

