-- ==== Sys2Proof/Machine/CmdReserved.lean ====
section
/-! DEFINITION. Machine/CmdReserved.lean: the reserved command word (30_encoding.md R57). -/

namespace Sys2Proof.Machine

/-- CMD_RESERVED, the write of 3 to `CMD`: "The spec gives a write of 3 to `CMD` no meaning: a model refuses it" (R57). -/
def execCmdReserved (_s : State) : Out := .refused .reservedCommand

end Sys2Proof.Machine
end

