-- ==== Sys2Proof/Machine/CmdSize.lean ====
section
/-! DEFINITION. Machine/CmdSize.lean: the command SIZE (40_size_estimator.md R66): its start and its completion. -/

namespace Sys2Proof.Machine

/-- SIZE, the write of 0 to `CMD`: the start (R46, R66). It has no precondition but that the core is not BUSY (R143). -/
def execSize (s : State) : Out := ifReady s (.next (startFlags .size s))

/-- The completion of SIZE (R66): `SRES <- esize(SARG); STATUS <- DONE_OK`. -/
def completeSize (s : State) : State := { s with sres := esize s.sarg, status := .doneOk }

end Sys2Proof.Machine
end

