-- ==== Sys2Proof/Machine/LenItems.lean ====
section
/-! DEFINITION. Machine/LenItems.lean: what a running DECODE does with the byte at its cursor, one meaning per LEN row of
the opcode table (42_parser_decoder.md R92 to R102). -/

namespace Sys2Proof.Machine

/-- The bytes UNSTUFF writes for a block: the separator owed by the block before, then the data verbatim (R100). -/
def unstuffBytes (s : State) (b : BlockRef) : List Byte :=
  (if s.pend then [0#8] else []) ++ readSlice s b.start b.cnt

/-- `pend <- (n < 255)` (R100) and `rp <- rp + n` (R97). -/
def closeBlock (b : BlockRef) (s : State) : State := { s with pend := isShort b.n, rp := s.rp + b.n }

/-- The state after a block is accepted. -/
def accepted (b : BlockRef) (s : State) : State := closeBlock b (appended (unstuffBytes s b) s)

/-- The block whose length byte `n` stands at the cursor (R97). -/
def blockAtCursor (n : Nat) (s : State) : BlockRef := ⟨n, s.rp + 1, dataCount n⟩

/-- UNSTUFF and the advance of the cursor (R97, R100). -/
def acceptBlock (b : BlockRef) (s : State) : Out :=
  if b.start + b.cnt ≤ fmax s.cfg then
    andThen (appendObuf (unstuffBytes s b) s) (fun t => .next (closeBlock b t))
  else .fault .ibufIndexOutside

/-- A length byte `n >= 1` at the cursor: TruncatedFrame (R96) or the block accepted (R97). -/
def lengthByte (n : Nat) (s : State) : Out :=
  if dataCount n > s.ilen - (s.rp + 1) then .next (raiseFailure .truncatedFrame s.rp s)
  else acceptBlock (blockAtCursor n s) s

/-- LEN_TERM (R94, R102): the parse ends, an owed separator is dropped, the result is delivered (R104). -/
def execLenTerm (s : State) : Out :=
  if atHeader s && atLastByte s then .next (deliver s) else .refused .notAtHeader

/-- LEN_ZERO_ILLEGAL (R95): `raise InvalidLengthByte(rp)`. -/
def execLenZeroIllegal (s : State) : Out :=
  if atHeader s && !atLastByte s then .next (raiseFailure .invalidLengthByte s.rp s) else .refused .notAtHeader

/-- LEN_FULL (R96, R97, R101): a block of 254 data bytes, after which no separator is owed. -/
def execLenFull (s : State) : Out :=
  if atHeader s then lengthByte 255 s else .refused .notAtHeader

/-- LEN_BLK (R96, R97, R101): a block of `n - 1` data bytes, after which a separator is owed. -/
def execLenBlk (n : Byte) (s : State) : Out :=
  if atHeader s then lengthByte n.toNat s else .refused .notAtHeader

end Sys2Proof.Machine
end

