-- ==== Sys2Proof/Machine/Dispatch.lean ====
section
/-! DEFINITION. Machine/Dispatch.lean: one arm per row of the opcode table. -/

namespace Sys2Proof.Machine

def exec (i : Instr) (s : State) : Host.Outcome State Fault Refusal :=
  match i with
  | .size => Sys2Proof.Machine.execSize s
  | .encode => Sys2Proof.Machine.execEncode s
  | .decode => Sys2Proof.Machine.execDecode s
  | .cmdReserved => Sys2Proof.Machine.execCmdReserved s
  | .lenTerm => Sys2Proof.Machine.execLenTerm s
  | .lenZeroIllegal => Sys2Proof.Machine.execLenZeroIllegal s
  | .lenFull => Sys2Proof.Machine.execLenFull s
  | .lenBlk n => Sys2Proof.Machine.execLenBlk n s

end Sys2Proof.Machine
end

