-- ==== Sys2Proof/Machine/CoreStep.lean ====
section
/-! DEFINITION. Machine/CoreStep.lean: what the core does when the host makes no move: one step of the running operation
(R46, R79, R104), or nothing (R130, R137). -/

namespace Sys2Proof.Machine

/-- The item DECODE fetches at its cursor (R50, R92). -/
def fetchItem (s : State) : Instr := decodeLen (headerByte s) (atLastByte s)

/-- PARSE_NEXT (R92): exhausted input ends the parse (R93); otherwise the byte at `rp` is read and the item it stands for
is run (R94 to R97). -/
def parseNext (s : State) : Out :=
  if s.rp = s.ilen then .next (deliver s)
  else if s.rp < fmax s.cfg then exec (fetchItem s) s
  else .fault .ibufIndexOutside

/-- The core's turn: from BUSY one step of the operation in progress; otherwise the core "holds its registers and buffers
and does nothing" (R130). -/
def coreStep (s : State) : Out :=
  match s.status with
  | .busy .size => .next (completeSize s)
  | .busy .encode => encodeStep s
  | .busy .decode => parseNext s
  | .idle | .doneOk | .doneFail => .next s

end Sys2Proof.Machine
end

