-- ==== Sys2Proof/Machine/HostMoves.lean ====
section
/-! DEFINITION. Machine/HostMoves.lean: the host's moves (70_reset_and_hazards.md R151) and how a word is placed where
the next step fetches it. -/

namespace Sys2Proof.Machine

/-- The value of a register the host can read (R10, R151). -/
def regValue (s : State) : ReadReg → Nat
  | .status => (statusCode s.status).toNat
  | .olen => s.olen
  | .sres => s.sres
  | .err => (errCode s.err).toNat
  | .epos => s.epos
  | .ilen => s.ilen
  | .sarg => s.sarg

/-- The host receives a value. -/
def receive (g : HostGot) (s : State) : State := { s with got := g :: s.got }

/-- A move that the host has only while the core is not BUSY (R144, R151). -/
def unlessBusy (s : State) (k : Out) : Out := if isBusy s then .refused .hostMoveWhileBusy else k

/-- `RST` (R135, R136): every register takes its reset value, the buffers become unspecified anew, an operation in
progress is abandoned. The parameters, the host's later moves and what it has read stay. -/
def resetEvent (s : State) : State :=
  { State.resetWith s.cfg with
    host := s.host, got := s.got, ibufDraw := s.ibufDraw + 1, obufDraw := s.obufDraw + 1 }

/-- Write `IBUF[i]` (R34, R151). -/
def hostWriteIbuf (i : Nat) (b : Byte) (s : State) : Out :=
  if i < fmax s.cfg then .next { s with ibuf := s.ibuf.write i b } else .refused .indexOutsideBuffer

/-- Write `ILEN` (R11, R151): a number of `LW` bits. -/
def hostWriteIlen (v : Nat) (s : State) : Out :=
  if v < 2 ^ lw s.cfg then .next { s with ilen := v } else .refused .valueTooWide

/-- Write `SARG` (R13, R151): a number of `LW` bits. -/
def hostWriteSarg (v : Nat) (s : State) : Out :=
  if v < 2 ^ lw s.cfg then .next { s with sarg := v } else .refused .valueTooWide

/-- Read `OBUF[i]` (R34, R145, R151). -/
def hostReadObuf (i : Nat) (s : State) : Out :=
  if i < fmax s.cfg then .next (receive (.obuf i (readObuf s i)) s) else .refused .indexOutsideBuffer

/-- Read `IBUF[i]` (R17, R34, U14). -/
def hostReadIbuf (i : Nat) (s : State) : Out :=
  if s.cfg.ibufReadable then
    if i < fmax s.cfg then .next (receive (.ibuf i (readIbuf s i)) s) else .refused .indexOutsideBuffer
  else .refused .ibufNotReadable

/-- Read a register: `STATUS` always, any other only while the core is not BUSY (R144, R151). -/
def hostRead (r : ReadReg) (s : State) : Out :=
  match r with
  | .status => .next (receive (.reg .status (regValue s .status)) s)
  | .olen | .sres | .err | .epos | .ilen | .sarg => unlessBusy s (.next (receive (.reg r (regValue s r)) s))

/-- The host's turn: the move `m`, after which the moves `rest` are left (R62, R151). -/
def hostTurn (m : HostMove) (rest : List HostMove) (s : State) : Out :=
  match m with
  | .wrIbuf i b => unlessBusy s (hostWriteIbuf i b { s with host := rest })
  | .wrIlen v => unlessBusy s (hostWriteIlen v { s with host := rest })
  | .wrSarg v => unlessBusy s (hostWriteSarg v { s with host := rest })
  | .cmd op => exec (decodeCmd op) { s with host := rest }
  | .rd r => hostRead r { s with host := rest }
  | .rdObuf i => unlessBusy s (hostReadObuf i { s with host := rest })
  | .rdIbuf i => unlessBusy s (hostReadIbuf i { s with host := rest })
  | .wait => if isBusy s then coreStep s else hostRead .status { s with host := rest }
  | .pass => coreStep { s with host := rest }
  | .rst => .next (resetEvent { s with host := rest })

/-- A command word as the host's next move; a core that is BUSY is made ready, or the move would be refused. -/
def placeCommand (op : BitVec 2) (s : State) : State :=
  { s with host := .cmd op :: s.host, status := if isBusy s then .idle else s.status }

/-- The bytes of an item, its data bytes zero where the word gives none: as many as its length byte says. -/
def itemBytes (bs : List Byte) : List Byte := bs ++ List.replicate ((bs.headD 0#8).toNat - bs.length) 0#8

/-- An item at the cursor of a running DECODE, with the host letting the core go on. -/
def placeItem (bs : List Byte) (s : State) : State :=
  { s with
    status := .busy .decode
    ibuf := s.ibuf.writeList s.rp (itemBytes bs)
    ilen := max s.ilen (s.rp + (itemBytes bs).length)
    host := .pass :: s.host }

end Sys2Proof.Machine
end

