-- ==== Sys2Proof/Machine/Step.lean ====
section
/-! DEFINITION. Machine/Step.lean: one step of the machine: the host's next move if it has one waiting, otherwise the
core's turn; and the state in which the next step runs a given word. -/

namespace Sys2Proof.Machine

/-- One step. `host` says which agent moves: its first move is made, and where it has none the core goes on. -/
def step (s : State) : Host.Outcome State Fault Refusal :=
  match s.host with
  | [] => coreStep s
  | m :: rest => hostTurn m rest s

/-- `s` with the word placed where `step` fetches its next instruction: a command word as the host's next write to
`CMD`, an item of a frame at the cursor of a running DECODE (notes/assumptions/11.md, notes/assumptions/12.md). -/
def State.withFetchWord (s : State) (nbits w : Nat) : State :=
  if isCmdWord nbits w then placeCommand (BitVec.ofNat 2 w) s
  else placeItem (leBytes ((nbits + 7) / 8) w) s

end Sys2Proof.Machine
end

