-- ==== Sys2Proof/Safety.lean ====
section
/-! DEFINITION. Safety.lean: what claims mean by a sound state: the invariant that holds after reset and after every
step (R27 and the bounds of R20, R21, R34, R84, R109), and the parts of the state an operation must leave alone. -/

namespace Sys2Proof.Machine

/-- The bytes a running ENCODE may still write when `x` payload bytes are not yet in a block and the framer is not
done: the bound of R84 for the rest, and for an empty rest the block `0x01` and the terminator. -/
def encodeRoom (x : Nat) : Nat := if x = 0 then 2 else esize x

/-- A running ENCODE: its operand fits, the framer's position is inside it, and what is still to be written has room
(R23, R72, R84). -/
structure EncodeSound (s : State) : Prop where
  ilen_le : s.ilen ≤ s.cfg.nmax
  fp_le : s.fp ≤ s.ilen
  room : s.wp + (if s.fdone then 1 else encodeRoom (s.ilen - s.fp)) ≤ fmax s.cfg

/-- A running DECODE: its operand fits, the cursor is inside it, and no more has been written (or is owed) than has been
read (R20, R109). -/
structure DecodeSound (s : State) : Prop where
  ilen_le : s.ilen ≤ fmax s.cfg
  rp_le : s.rp ≤ s.ilen
  wp_le : s.wp + s.pend.toNat ≤ s.rp

/-- What holds while ENCODE or DECODE runs, whichever it is: nothing is delivered yet (R36) and every byte below `wp` has
been written (R21). -/
structure RunSound (s : State) : Prop where
  olen_zero : s.olen = 0
  written : ∀ i, i < s.wp → (s.obuf.get? i).isSome = true

/-- THE INVARIANT. Widths (R10 to R16), buffer bounds and canonical form (R17, R18, R34), the flags of R27, the extent
of the result (R18), and the invariants of a running operation. -/
structure Sound (s : State) : Prop where
  nmax_pos : 1 ≤ s.cfg.nmax
  ilen_fits : s.ilen < 2 ^ lw s.cfg
  sarg_fits : s.sarg < 2 ^ lw s.cfg
  sres_fits : s.sres < 2 ^ (lw s.cfg + 1)
  olen_le : s.olen ≤ fmax s.cfg
  epos_le : s.epos ≤ fmax s.cfg
  fp_le : s.fp ≤ fmax s.cfg
  rp_le : s.rp ≤ fmax s.cfg
  wp_le : s.wp ≤ fmax s.cfg
  ibuf_wf : s.ibuf.wf = true
  obuf_wf : s.obuf.wf = true
  ibuf_inside : ∀ c ∈ s.ibuf, c.1 < fmax s.cfg
  obuf_inside : ∀ c ∈ s.obuf, c.1 < fmax s.cfg
  err_iff_fail : s.err ≠ .none ↔ s.status = .doneFail
  epos_of_fail : s.status ≠ .doneFail → s.epos = 0
  fail_olen : s.status = .doneFail → s.olen = 0
  result_extent : s.status ≠ .busy .encode → s.status ≠ .busy .decode → ∀ i, ((s.obuf.get? i).isSome = true ↔ i < s.olen)
  running_encode : s.status = .busy .encode → EncodeSound s ∧ RunSound s
  running_decode : s.status = .busy .decode → DecodeSound s ∧ RunSound s

/-- `k` steps of the machine, stopping at the first stop. -/
def steps : Nat → State → Out
  | 0, s => .next s
  | k + 1, s => andThen (step s) (steps k)

/-- What no command writes (R11, R13, R17, R25): the parameters, `ILEN`, `SARG` and every byte of `IBUF`. -/
def SameOperands (s t : State) : Prop :=
  t.cfg = s.cfg ∧ t.ilen = s.ilen ∧ t.sarg = s.sarg ∧ ∀ a, readIbuf t a = readIbuf s a

/-- Nothing is specified in `OBUF` from index `a` on (R18, R122). -/
def UnspecifiedFrom (a : Nat) (t : State) : Prop := ∀ i, a ≤ i → t.obuf.get? i = none

end Sys2Proof.Machine
end

