-- ==== Sys2Proof/Certificates/Slice0/Obligations.lean ====
section
/-! DEFINITION. Certificates/Slice0/Obligations.lean: the statements for the provers, in the order of the spec's files.
`t = { s with ..., obuf := t.obuf }` says that `t` is `s` but for the fields named, the new contents of `OBUF` being told
byte by byte beside it. -/

open Sys2Proof Sys2Proof.Machine

/-! ## Parameters and reset (R5, R26, R135, R136) -/

/-- R5: `FMAX = NMAX + ceil(NMAX / 254) + 1`, and `LW` is the least natural number with `2^LW > FMAX`. -/
def Obligations.ParametersOfR5 : Prop :=
  ∀ c : Config, fmax c = c.nmax + (c.nmax + 253) / 254 + 1 ∧ fmax c = esize c.nmax ∧
    ∀ L : Nat, fmax c < 2 ^ L ↔ lw c ≤ L

/-- R26, for every choice of the parameters: the registers after reset; nothing is specified in the buffers. -/
def Obligations.ResetRegisterValues : Prop :=
  (∀ c : Config, ∀ s : State, s = State.resetWith c →
    s.status = .idle ∧ statusCode s.status = 0#2 ∧ errCode s.err = 0#2 ∧ s.epos = 0 ∧ s.ilen = 0 ∧ s.olen = 0 ∧
      s.sarg = 0 ∧ s.sres = 0 ∧ ∀ i, s.ibuf.get? i = none ∧ s.obuf.get? i = none) ∧
  ∃ c : Config, 1 ≤ c.nmax ∧ State.reset = State.resetWith c

/-- R26, R135, R136: `RST`, in any state, BUSY or not: the register values of R26, both buffers unspecified, the operation
in progress abandoned. The model's own reading: the parameters, the host's later moves and what it has read stay
(notes/assumptions/14.md, DEDUCED), and the unspecified bytes are drawn anew (notes/assumptions/5.md, 6.md, 15.md). -/
def Obligations.ResetEventAbandonsOperation : Prop :=
  ∀ (s : State) (rest : List HostMove), s.host = .rst :: rest →
    ∃ t, step s = .next t ∧ isBusy t = false ∧ statusCode t.status = 0#2 ∧ errCode t.err = 0#2 ∧ t.epos = 0 ∧
      t.ilen = 0 ∧ t.olen = 0 ∧ t.sarg = 0 ∧ t.sres = 0 ∧ (∀ i, t.ibuf.get? i = none ∧ t.obuf.get? i = none) ∧
      t.ibufDraw ≠ s.ibufDraw ∧ t.obufDraw ≠ s.obufDraw ∧ t.cfg = s.cfg ∧ t.host = rest ∧ t.got = s.got

/-! ## Encodings (R45, R50, R54 to R57) -/

/-- The words of the opcode table, written out: each stands for its row. -/
def Obligations.WordsOfTheOpcodeTable : Prop :=
  decodeCmd 0b00#2 = .size ∧ decodeCmd 0b01#2 = .encode ∧ decodeCmd 0b10#2 = .decode ∧ decodeCmd 0b11#2 = .cmdReserved ∧
  decodeLen 0b00000000#8 true = .lenTerm ∧ decodeLen 0b00000000#8 false = .lenZeroIllegal ∧
  decodeLen 0b11111111#8 false = .lenFull ∧ decodeLen 0b00000001#8 true = .lenBlk 1#8 ∧
  decodeLen 0b11111110#8 false = .lenBlk 254#8

/-- Decoding an encoded well-formed instruction gives it back; every word decodes to a well-formed instruction, whose
encoding has the word's bits and, for a command or a zero byte, the very word. -/
def Obligations.EncodingRoundTrips : Prop :=
  (∀ i : Instr, i.wf = true → decodeCode (encode i) = i) ∧
  ∀ w : Code, (decodeCode w).wf = true ∧ codeBits (encode (decodeCode w)) = codeBits w ∧
    ((∀ b last, w = .len b last → b = 0#8) → encode (decodeCode w) = w)

/-- R50: every byte value at a header position falls in exactly one class, the class of `0x00` by its position. -/
def Obligations.HeaderByteClasses : Prop :=
  ∀ (b : Byte) (last : Bool),
    (decodeLen b last = .lenTerm ↔ b.toNat = 0 ∧ last = true) ∧
    (decodeLen b last = .lenZeroIllegal ↔ b.toNat = 0 ∧ last = false) ∧
    (decodeLen b last = .lenFull ↔ b.toNat = 255) ∧
    (decodeLen b last = .lenBlk b ↔ 1 ≤ b.toNat ∧ b.toNat ≤ 254)

/-! ## A step runs what it fetches -/

/-- A write to `CMD` runs the command its value decodes to, at the state with that move made. -/
def Obligations.StepRunsDecodedCommand : Prop :=
  ∀ (s : State) (op : BitVec 2) (rest : List HostMove), s.host = .cmd op :: rest →
    (decodeCmd op).wf = true ∧ step s = exec (decodeCmd op) { s with host := rest }

/-- While a DECODE runs and the cursor stands at a header position, a step of the core runs the item that the byte there
decodes to; a host that waits stays waiting, one that passes has made its move. -/
def Obligations.StepRunsDecodedItem : Prop :=
  ∀ s : State, s.status = .busy .decode → s.rp < s.ilen → s.rp < fmax s.cfg →
    ∀ i : Instr, i = decodeLen (readIbuf s s.rp) (decide (s.rp + 1 = s.ilen)) →
      i.wf = true ∧ (s.host = [] → step s = exec i s) ∧
      (∀ rest, s.host = .wait :: rest → step s = exec i s) ∧
      (∀ rest, s.host = .pass :: rest → step s = exec i { s with host := rest })

/-- R130, R137, R62: between operations, with no move of the host, the core holds its registers and buffers, and a WAIT is
one read of `STATUS`; while BUSY, whichever operation runs and wherever it stands, a step in which the host has no move,
waits or passes is the core's turn, and a host that waits stays waiting. How the host's list says that it waits or passes
is the model's (notes/assumptions/8.md, DESIGN CHOICE). -/
def Obligations.CoreHoldsBetweenOperations : Prop :=
  (∀ s : State, isBusy s = false →
    (s.host = [] → step s = .next s) ∧ (∀ rest, s.host = .pass :: rest → step s = .next { s with host := rest }) ∧
    (∀ rest, s.host = .wait :: rest → step s = step { s with host := .rd .status :: rest })) ∧
  ∀ s : State, isBusy s = true →
    (s.host = [] → step s = coreStep s) ∧ (∀ rest, s.host = .wait :: rest → step s = coreStep s) ∧
    (∀ rest, s.host = .pass :: rest → step s = coreStep { s with host := rest })

/-! ## The host's moves (R34, R143, R144, R151) -/

/-- R151: the writes of the host, while the core is not BUSY: the byte is stored and every other byte of `IBUF` stays; the
register is set; nothing else changes. -/
def Obligations.HostWritesStore : Prop :=
  ∀ (s : State) (rest : List HostMove), isBusy s = false →
    (∀ i b, s.host = .wrIbuf i b :: rest → i < fmax s.cfg →
      ∃ t, step s = .next t ∧ t = { s with host := rest, ibuf := t.ibuf } ∧ readIbuf t i = b ∧
        ∀ a, a ≠ i → readIbuf t a = readIbuf s a) ∧
    (∀ v, s.host = .wrIlen v :: rest → v < 2 ^ lw s.cfg → step s = .next { s with host := rest, ilen := v }) ∧
    (∀ v, s.host = .wrSarg v :: rest → v < 2 ^ lw s.cfg → step s = .next { s with host := rest, sarg := v })

/-- R15, R16, R151: the reads of the host have no effect on the block and give the register's value: `STATUS` always, as 0
for IDLE, 1 for BUSY, 2 for DONE_OK, 3 for DONE_FAIL; `OLEN`, `SRES`, `EPOS`, `ILEN`, `SARG`, `ERR` (0, 1, 2 by cause) and
`OBUF[i]` while the core is not BUSY, the result's byte for `i < OLEN`. `IBUF[i]` only on a platform that grants the read
(R17, U14; that the platform's choice is a parameter is the model's, notes/assumptions/2.md). -/
def Obligations.HostReadsGiveValues : Prop :=
  ∀ (s : State) (rest : List HostMove),
    (∀ v, s.host = .rd .status :: rest →
      s.status = .idle ∧ v = 0 ∨ (∃ op, s.status = .busy op) ∧ v = 1 ∨ s.status = .doneOk ∧ v = 2 ∨
        s.status = .doneFail ∧ v = 3 →
      step s = .next { s with host := rest, got := .reg .status v :: s.got }) ∧
    (isBusy s = false →
      (s.host = .rd .olen :: rest → step s = .next { s with host := rest, got := .reg .olen s.olen :: s.got }) ∧
      (s.host = .rd .sres :: rest → step s = .next { s with host := rest, got := .reg .sres s.sres :: s.got }) ∧
      (s.host = .rd .epos :: rest → step s = .next { s with host := rest, got := .reg .epos s.epos :: s.got }) ∧
      (s.host = .rd .ilen :: rest → step s = .next { s with host := rest, got := .reg .ilen s.ilen :: s.got }) ∧
      (s.host = .rd .sarg :: rest → step s = .next { s with host := rest, got := .reg .sarg s.sarg :: s.got }) ∧
      (∀ v, s.host = .rd .err :: rest →
        s.err = .none ∧ v = 0 ∨ s.err = .truncated ∧ v = 1 ∨ s.err = .invalidLen ∧ v = 2 →
        step s = .next { s with host := rest, got := .reg .err v :: s.got }) ∧
      (∀ i, s.host = .rdObuf i :: rest → i < fmax s.cfg →
        step s = .next { s with host := rest, got := .obuf i (readObuf s i) :: s.got } ∧
          (i < s.olen → (result s)[i]? = some (readObuf s i))) ∧
      ∀ i, s.host = .rdIbuf i :: rest →
        (s.cfg.ibufReadable = true → i < fmax s.cfg →
          step s = .next { s with host := rest, got := .ibuf i (readIbuf s i) :: s.got }) ∧
        (s.cfg.ibufReadable = false → step s = .refused .ibufNotReadable))

/-- R144: "While `STATUS = BUSY` the host may read `STATUS` and do nothing else to the block": every other move of the host
is refused (`RST` comes from outside, R135; a wait and a pass do nothing to the block). -/
def Obligations.BusyAllowsOnlyStatusReads : Prop :=
  ∀ (s : State) (m : HostMove) (rest : List HostMove), isBusy s = true → s.host = m :: rest →
    (m ≠ .rd .status → m ≠ .wait → m ≠ .pass → m ≠ .rst → ∃ r, step s = .refused r) ∧
    (m = .rd .status → step s = .next { s with host := rest, got := .reg .status 1 :: s.got })

/-- R34: a host access at an index of `FMAX` or more is refused, and no state follows. -/
def Obligations.HostIndexOutsideRefused : Prop :=
  ∀ (s : State) (i : Nat) (rest : List HostMove), isBusy s = false → fmax s.cfg ≤ i →
    (∀ b, s.host = .wrIbuf i b :: rest → step s = .refused .indexOutsideBuffer) ∧
    (s.host = .rdObuf i :: rest → step s = .refused .indexOutsideBuffer)

/-! ## The starts (R46, R57, R143) -/

/-- R143: a command starts exactly within its contract; outside it the write to `CMD` is refused. -/
def Obligations.StartsExactlyWithinContract : Prop :=
  ∀ s : State,
    ((∃ t, exec .size s = .next t) ↔ isBusy s = false) ∧
    ((∃ t, exec .encode s = .next t) ↔ isBusy s = false ∧ s.ilen ≤ s.cfg.nmax) ∧
    ((∃ t, exec .decode s = .next t) ↔ isBusy s = false ∧ s.ilen ≤ fmax s.cfg) ∧
    (∀ i, i = .size ∨ i = .encode ∨ i = .decode ∨ i = .cmdReserved →
      (∃ t, exec i s = .next t) ∨ ∃ r, exec i s = .refused r) ∧
    ¬ ∃ t, exec .cmdReserved s = .next t

/-- R57: the reserved command is refused, in every state, and a step that makes the move is. -/
def Obligations.ReservedCommandRefused : Prop :=
  (∀ s : State, exec .cmdReserved s = .refused .reservedCommand) ∧
  ∀ (s : State) (rest : List HostMove), s.host = .cmd 3#2 :: rest → step s = .refused .reservedCommand

/-- The frame of the starts: SIZE, ENCODE and DECODE store nothing; the start of SIZE leaves `OLEN` and the working
registers, that of ENCODE the parser's, that of DECODE the framer's. -/
def Obligations.StartsStoreNothing : Prop :=
  ∀ (i : Instr) (s t : State), i = .size ∨ i = .encode ∨ i = .decode → exec i s = .next t →
    SameOperands s t ∧ (∀ a, readObuf t a = readObuf s a) ∧ t.sres = s.sres ∧ t.host = s.host ∧ t.got = s.got ∧
      (i = .size → t.olen = s.olen ∧ t.wp = s.wp) ∧
      (i ≠ .encode → t.fp = s.fp ∧ t.fdone = s.fdone) ∧ (i ≠ .decode → t.rp = s.rp ∧ t.pend = s.pend)

/-! ## SIZE (R65 to R69) -/

/-- R66: SIZE starts whatever `SARG` is, and its completion is the core's next turn: `SRES` receives
`SARG + (SARG + 253) / 254 + 1`, `STATUS` is DONE_OK, nothing else is written. -/
def Obligations.SizeCompletes : Prop :=
  ∀ s : State, isBusy s = false →
    ∃ t, exec .size s = .next t ∧ t = { s with status := .busy .size, err := .none, epos := 0 } ∧
      coreStep t = .next { t with sres := s.sarg + (s.sarg + 253) / 254 + 1, status := .doneOk } ∧
      statusCode t.status = 1#2 ∧ decodeCmd 0#2 = .size ∧ (s.host = [] → step t = coreStep t) ∧
      (s.sarg = 0 → s.sarg + (s.sarg + 253) / 254 + 1 = 1) ∧
      (254 ∣ s.sarg → s.sarg + (s.sarg + 253) / 254 + 1 = s.sarg + s.sarg / 254 + 1) ∧
      (s.sarg < 2 ^ lw s.cfg → s.sarg + (s.sarg + 253) / 254 + 1 < 2 ^ (lw s.cfg + 1))

/-- R65: the estimator is the ceiling form for every natural number; the integer-division form is smaller by 1 exactly
where 254 does not divide `n`, and is no bound: for 3 it gives 4, and the vector `encode([0x01,0x02,0x03])` has 5 bytes. -/
def Obligations.EstimatorIsCeilingForm : Prop :=
  (∀ n : Nat, esize n = n + ⌈(n : ℚ) / 254⌉₊ + 1 ∧ esize n = n + (n + 253) / 254 + 1 ∧
    (¬ 254 ∣ n → esize n = n + n / 254 + 1 + 1) ∧ (254 ∣ n → esize n = n + n / 254 + 1)) ∧
  3 + 3 / 254 + 1 = 4 ∧ esize 3 = 5 ∧ enc [0x01#8, 0x02#8, 0x03#8] = [0x04#8, 0x01#8, 0x02#8, 0x03#8, 0x00#8]

/-- R67, R13: the estimator is strictly increasing by 1 or 2, its values at multiples of 254 and between, and its result
for an operand of `LW` bits fits in `LW + 1`. -/
def Obligations.EstimatorArithmetic : Prop :=
  (∀ n, esize (n + 1) = esize n + (if n % 254 = 0 then 2 else 1)) ∧ (∀ q, esize (254 * q) = 255 * q + 1) ∧
  (∀ q r, 1 ≤ r → r ≤ 253 → esize (254 * q + r) = 255 * q + r + 2) ∧
  ∀ n L, n < 2 ^ L → esize n < 2 ^ (L + 1)

/-- R68: the frame never exceeds the estimate, and a payload without a zero byte attains it. -/
def Obligations.FrameLengthBound : Prop :=
  ∀ p : List Byte, (enc p).length ≤ esize p.length ∧ ((∀ b ∈ p, b ≠ 0#8) → (enc p).length = esize p.length)

/-! ## The framer and ENCODE (R70 to R88) -/

/-- R46, R79: ENCODE starts when `ILEN <= NMAX`; the framer is done at once exactly when the payload is empty. -/
def Obligations.EncodeStarts : Prop :=
  ∀ s : State, isBusy s = false → s.ilen ≤ s.cfg.nmax →
    exec .encode s = .next { s with
      status := .busy .encode, err := .none, epos := 0, olen := 0, fp := 0, fdone := decide (s.ilen = 0), wp := 0 }

/-- R73: EMIT_FULL. With more than 254 bytes left in the run, the step writes `0xFF` and exactly 254 data bytes, all
non-zero, moves `fp` past them inside the same run, and leaves every other byte and register; and in the decoded
reconstruction no separator follows such a block. -/
def Obligations.EmitFullBlock : Prop :=
  (∀ (d : List Byte) (b : Block) (bs : List Block), payloadOf (⟨255, d⟩ :: b :: bs) = d ++ payloadOf (b :: bs)) ∧
  ∀ s : State, s.status = .busy .encode → s.fdone = false → s.ilen ≤ fmax s.cfg → s.fp ≤ s.ilen →
    254 < runEnd s - s.fp → s.wp + 255 ≤ fmax s.cfg →
    ∃ t, coreStep s = .next t ∧ t = { s with fp := s.fp + 254, wp := s.wp + 255, obuf := t.obuf } ∧
      readObuf t s.wp = 0xFF#8 ∧
      (∀ j, j < 254 → readObuf t (s.wp + 1 + j) = readIbuf s (s.fp + j) ∧ readIbuf s (s.fp + j) ≠ 0#8) ∧
      (∀ a, a < s.wp ∨ s.wp + 255 ≤ a → readObuf t a = readObuf s a) ∧
      runEnd t = runEnd s ∧ t.fp < runEnd t

/-- R74, R75: EMIT_FINAL. With `L <= 254` bytes left in the run, the step writes `L + 1` and the `L` bytes; at the end of
the payload the framer is done, otherwise it resumes after the separator, which produces no byte. -/
def Obligations.EmitFinalBlock : Prop :=
  ∀ s : State, s.status = .busy .encode → s.fdone = false → s.ilen ≤ fmax s.cfg → s.fp ≤ s.ilen →
    ∀ L : Nat, L = runEnd s - s.fp → L ≤ 254 → s.wp + (L + 1) ≤ fmax s.cfg →
    ∃ t, coreStep s = .next t ∧
      t = { s with fp := t.fp, fdone := t.fdone, wp := s.wp + (L + 1), obuf := t.obuf } ∧
      (readObuf t s.wp).toNat = L + 1 ∧ (∀ j, j < L → readObuf t (s.wp + 1 + j) = readIbuf s (s.fp + j)) ∧
      (∀ a, a < s.wp ∨ s.wp + (L + 1) ≤ a → readObuf t a = readObuf s a) ∧
      (runEnd s = s.ilen → t.fdone = true ∧ t.fp = s.fp) ∧
      (runEnd s ≠ s.ilen → t.fdone = false ∧ t.fp = runEnd s + 1 ∧ readIbuf s (runEnd s) = 0#8)

/-- R77, R79: after the last block the terminator is written and the operation completes. -/
def Obligations.EmitTerminator : Prop :=
  ∀ s : State, s.status = .busy .encode → s.fdone = true → s.ilen ≤ fmax s.cfg → s.wp + 1 ≤ fmax s.cfg →
    (∀ i, i < s.wp → (s.obuf.get? i).isSome = true) →
    ∃ t, coreStep s = .next t ∧
      t = { s with wp := s.wp + 1, olen := s.wp + 1, status := .doneOk, obuf := t.obuf, obufDraw := t.obufDraw } ∧
      readObuf t s.wp = 0x00#8 ∧ (∀ a, a < s.wp → readObuf t a = readObuf s a) ∧ UnspecifiedFrom (s.wp + 1) t

/-- R72: the blocks FRAME_NEXT emits from the start of ENCODE until `fdone = 1` are `blocks(IBUF[0..ILEN))`. -/
def Obligations.FramerEmitsBlocks : Prop :=
  ∀ s : State, s.fp = 0 → s.fdone = decide (s.ilen = 0) → ∀ k, s.ilen + 1 ≤ k →
    (framed k s).map (fun b => (⟨b.n, readSlice s b.start b.cnt⟩ : Block)) = blocks (operand s)

/-- R79, R80: ENCODE starts and, with the host waiting, completes within `ILEN + 2` steps with `OBUF[0..OLEN) = enc(p)`;
`STATUS` is DONE_OK, `ERR` and `EPOS` stay 0, the operands, `SARG` and `SRES` stay, and nothing beyond `OLEN` is
specified. -/
def Obligations.EncodeDeliversFrame : Prop :=
  ∀ s : State, isBusy s = false → s.host = [] → s.ilen ≤ s.cfg.nmax →
    ∃ t u, exec .encode s = .next t ∧ (∀ k, s.ilen + 2 ≤ k → steps k t = .next u) ∧
      result u = enc (operand s) ∧ u.olen = (enc (operand s)).length ∧ u.status = .doneOk ∧ u.err = .none ∧ u.epos = 0 ∧
      SameOperands s u ∧ u.sres = s.sres ∧ u.host = [] ∧ u.got = s.got ∧ UnspecifiedFrom u.olen u

/-- R81: the byte-serial formulation equals the block form for every payload. -/
def Obligations.ByteSerialEncoderAgrees : Prop := ∀ p : List Byte, encSerial p = enc p

/-- R49: every byte of `enc(p)` except the last is non-zero, and the last byte is exactly `0x00`. -/
def Obligations.FrameZeroOnlyAtEnd : Prop :=
  ∀ p : List Byte, (∀ b ∈ (enc p).dropLast, b ≠ 0#8) ∧ (enc p).getLast? = some 0#8

/-- R82: every output of the encoder is a well-formed frame, with the framer's blocks as its blocks. -/
def Obligations.EncodedFrameWellFormed : Prop :=
  ∀ p : List Byte, wfFrame (enc p) ∧ ∀ b ∈ blocks p, b.wf = true

/-- R83: the exact frame length, from the number of zero bytes and the lengths of the runs. -/
def Obligations.ExactFrameLength : Prop :=
  (enc []).length = 1 ∧
  ∀ p : List Byte, p ≠ [] →
    (split0 p).length = p.count 0#8 + 1 ∧
    p.length = p.count 0#8 + ((split0 p).map List.length).sum ∧
    (enc p).length = (p.length - p.count 0#8) + ((split0 p).map (fun r => hb r.length)).sum + 1

/-- R85: ENCODE cannot fail: from every sound state in which it runs, its step answers a next state, still running or
DONE_OK, with no side effect beyond writing its result. -/
def Obligations.EncodeCannotFail : Prop :=
  ∀ s : State, Sound s → s.status = .busy .encode →
    ∃ t, coreStep s = .next t ∧ (t.status = .busy .encode ∨ t.status = .doneOk) ∧
      t = { s with fp := t.fp, fdone := t.fdone, wp := t.wp, olen := t.olen, status := t.status, obuf := t.obuf,
                   obufDraw := t.obufDraw }

/-- R86: the frames at the 254 boundary, for a zero-free run that is the whole payload. -/
def Obligations.FullBlockBoundary : Prop :=
  ∀ d : List Byte, (∀ b ∈ d, b ≠ 0#8) →
    (d.length = 253 → enc d = 0xFE#8 :: (d ++ [0#8])) ∧
    (d.length = 254 → enc d = 0xFF#8 :: (d ++ [0#8])) ∧
    (d.length = 255 → enc d = 0xFF#8 :: (d.take 254 ++ 0x02#8 :: (d.drop 254 ++ [0#8]))) ∧
    (d.length = 508 → enc d = 0xFF#8 :: (d.take 254 ++ 0xFF#8 :: (d.drop 254 ++ [0#8]))) ∧
    (d.length = 509 → enc d =
      0xFF#8 :: (d.take 254 ++ 0xFF#8 :: ((d.drop 254).take 254 ++ 0x02#8 :: (d.drop 508 ++ [0#8]))))

/-- R87: the encoder is not injective: after a run of positive-multiple-of-254 length the separator leaves no trace. -/
def Obligations.EncoderNotInjective : Prop :=
  ∀ (a r b : List Byte) (x : Byte), (a = [] ∨ a.getLast? = some 0#8) → (∀ y ∈ r, y ≠ 0#8) → losesSeparator r = true →
    x ≠ 0#8 → enc (a ++ r ++ [0#8] ++ x :: b) = enc (a ++ r ++ x :: b)

/-! ## The parser and DECODE (R90 to R113) -/

/-- R46, R104: DECODE starts when `ILEN <= FMAX`. -/
def Obligations.DecodeStarts : Prop :=
  ∀ s : State, isBusy s = false → s.ilen ≤ fmax s.cfg →
    exec .decode s = .next { s with
      status := .busy .decode, err := .none, epos := 0, olen := 0, rp := 0, wp := 0, pend := false }

/-- R93: with no byte left the parse ends successfully; so an input without a terminator is accepted when its blocks fill
it, and the empty input parses to no blocks. -/
def Obligations.ExhaustedInputEndsParse : Prop :=
  (∀ s : State, s.status = .busy .decode → s.rp = s.ilen → (∀ i, i < s.wp → (s.obuf.get? i).isSome = true) →
    ∃ t, coreStep s = .next t ∧
      t = { s with olen := s.wp, status := .doneOk, obuf := t.obuf, obufDraw := t.obufDraw } ∧
      (∀ a, a < s.wp → readObuf t a = readObuf s a) ∧ UnspecifiedFrom s.wp t) ∧
  parse [] = .ok [] ∧ parse [0x03#8, 0x01#8, 0x02#8] = .ok [⟨3, [0x01#8, 0x02#8]⟩]

/-- R94, R102: a zero at the last index is LEN_TERM, which ends the parse successfully: `OLEN <- wp`, an owed separator is
not written, the bytes below `wp` are the result; the lone terminator is the empty frame. -/
def Obligations.TerminatorEndsParse : Prop :=
  dec [0x00#8] = .ok [] ∧ parse [0x00#8] = .ok [] ∧
  ∀ s : State, s.status = .busy .decode → s.rp + 1 = s.ilen → (∀ i, i < s.wp → (s.obuf.get? i).isSome = true) →
    ∃ t, exec .lenTerm s = .next t ∧
      t = { s with olen := s.wp, status := .doneOk, obuf := t.obuf, obufDraw := t.obufDraw } ∧
      (∀ a, a < s.wp → readObuf t a = readObuf s a) ∧ UnspecifiedFrom s.wp t ∧
      (readIbuf s s.rp = 0x00#8 → s.rp < fmax s.cfg → coreStep s = .next t)

/-- R95, R122: a zero at an earlier index is LEN_ZERO_ILLEGAL: failure entry with InvalidLengthByte at `rp`: `STATUS` 3, `ERR` 2,
`OLEN` 0, every byte of `OBUF` unspecified, nothing else changed; bytes after a terminator are not ignored. -/
def Obligations.ZeroMidFrameFails : Prop :=
  dec [0x02#8, 0x05#8, 0x00#8, 0x02#8, 0x06#8, 0x00#8] = .fail .invalidLengthByte 2 ∧
  ∀ s : State, s.status = .busy .decode → s.rp + 1 < s.ilen →
    ∃ t, exec .lenZeroIllegal s = .next t ∧
      t = { s with status := .doneFail, err := .invalidLen, epos := s.rp, olen := 0, obuf := t.obuf,
                   obufDraw := t.obufDraw } ∧
      UnspecifiedFrom 0 t ∧ statusCode t.status = 3#2 ∧ errCode t.err = 2#2 ∧ (∀ a, readIbuf t a = readIbuf s a) ∧
      (readIbuf s s.rp = 0x00#8 → s.rp < fmax s.cfg → coreStep s = .next t)

/-- R96, R116, R122: a length byte whose data do not all lie below `ILEN`: failure entry with TruncatedFrame at `rp`,
before any byte of the block is copied, for LEN_FULL and for LEN_BLK; `n = 1` never fails the test, and a terminator counts
among the bytes that remain. -/
def Obligations.TruncatedBlockFails : Prop :=
  dec [0x05#8, 0x01#8, 0x02#8] = .fail .truncatedFrame 0 ∧
  dec [0x04#8, 0x01#8, 0x02#8, 0x00#8] = .ok [0x01#8, 0x02#8, 0x00#8] ∧
  (∀ s t : State, exec (.lenBlk 1#8) s = .next t → t.status ≠ .doneFail) ∧
  ∀ (i : Instr) (n : Nat) (s : State), (i = .lenFull ∧ n = 255 ∨ ∃ b : Byte, i = .lenBlk b ∧ n = b.toNat) →
    s.status = .busy .decode → s.rp < s.ilen → n - 1 > s.ilen - (s.rp + 1) →
    ∃ t, exec i s = .next t ∧
      t = { s with status := .doneFail, err := .truncated, epos := s.rp, olen := 0, obuf := t.obuf,
                   obufDraw := t.obufDraw } ∧
      UnspecifiedFrom 0 t ∧ statusCode t.status = 3#2 ∧ errCode t.err = 1#2 ∧ (∀ a, readIbuf t a = readIbuf s a) ∧
      (readIbuf s s.rp = BitVec.ofNat 8 n → 1 ≤ n → s.rp < fmax s.cfg → coreStep s = .next t)

/-- R97, R100, R101: LEN_FULL accepted: the owed separator is written, the 254 data bytes are copied verbatim, no
separator is owed after it, the cursor moves by 255; every other byte and register stays. -/
def Obligations.FullBlockAccepted : Prop :=
  ∀ s : State, s.status = .busy .decode → s.rp + 255 ≤ s.ilen → s.ilen ≤ fmax s.cfg →
    s.wp + s.pend.toNat + 254 ≤ fmax s.cfg →
    ∃ t, exec .lenFull s = .next t ∧
      t = { s with rp := s.rp + 255, wp := s.wp + s.pend.toNat + 254, pend := false, obuf := t.obuf } ∧
      (s.pend = true → readObuf t s.wp = 0#8) ∧
      (∀ j, j < 254 → readObuf t (s.wp + s.pend.toNat + j) = readIbuf s (s.rp + 1 + j)) ∧
      (∀ a, a < s.wp ∨ s.wp + s.pend.toNat + 254 ≤ a → readObuf t a = readObuf s a)

/-- R97, R100, R101: LEN_BLK accepted: as LEN_FULL with `n - 1` data bytes, and a separator is owed after it. -/
def Obligations.ShortBlockAccepted : Prop :=
  ∀ (b : Byte) (n : Nat) (s : State), n = b.toNat → 1 ≤ n → n ≤ 254 → s.status = .busy .decode →
    s.rp + n ≤ s.ilen → s.ilen ≤ fmax s.cfg → s.wp + s.pend.toNat + (n - 1) ≤ fmax s.cfg →
    ∃ t, exec (.lenBlk b) s = .next t ∧
      t = { s with rp := s.rp + n, wp := s.wp + s.pend.toNat + (n - 1), pend := true, obuf := t.obuf } ∧
      (s.pend = true → readObuf t s.wp = 0#8) ∧
      (∀ j, j < n - 1 → readObuf t (s.wp + s.pend.toNat + j) = readIbuf s (s.rp + 1 + j)) ∧
      (∀ a, a < s.wp ∨ s.wp + s.pend.toNat + (n - 1) ≤ a → readObuf t a = readObuf s a)

/-- The frame of the LEN rows, whatever their outcome: the operands, `SARG`, `SRES` and the framer's registers stay; an
accepted block stores only in `OBUF[wp .. wp + owed + cnt)`; a delivered result keeps every byte below `wp`. -/
def Obligations.ItemFrame : Prop :=
  ∀ (i : Instr) (s t : State), isCommand i = false → exec i s = .next t →
    SameOperands s t ∧ t.sres = s.sres ∧ t.fp = s.fp ∧ t.fdone = s.fdone ∧ t.host = s.host ∧ t.got = s.got ∧
      (t.status = .busy .decode → t.err = s.err ∧ t.epos = s.epos ∧ t.olen = s.olen ∧
        ∀ n, (i = .lenFull ∧ n = 255 ∨ ∃ b : Byte, i = .lenBlk b ∧ n = b.toNat) →
          ∀ a, a < s.wp ∨ s.wp + (unstuffBytes s (blockAtCursor n s)).length ≤ a → readObuf t a = readObuf s a) ∧
      (t.status = .doneOk → ∀ a, a < s.wp → (s.obuf.get? a).isSome = true → readObuf t a = readObuf s a)

/-- R103, R104, R105: DECODE starts and, with the host waiting, completes within `ILEN + 1` steps with what `dec` gives:
the payload in `OBUF[0..OLEN)`, or the failure's cause and index with `OLEN = 0` and nothing of `OBUF` specified. -/
def Obligations.DecodeDeliversPayload : Prop :=
  ∀ s : State, isBusy s = false → s.host = [] → s.ilen ≤ fmax s.cfg →
    ∃ t u, exec .decode s = .next t ∧ (∀ k, s.ilen + 1 ≤ k → steps k t = .next u) ∧
      (∀ v, dec (operand s) = .ok v →
        u.status = .doneOk ∧ u.err = .none ∧ u.epos = 0 ∧ result u = v ∧ u.olen = v.length ∧ UnspecifiedFrom u.olen u) ∧
      (∀ cause pos, dec (operand s) = .fail cause pos →
        u.status = .doneFail ∧ u.err = causeErr cause ∧ u.epos = pos ∧ u.olen = 0 ∧ UnspecifiedFrom 0 u) ∧
      SameOperands s u ∧ u.sres = s.sres ∧ u.host = [] ∧ u.got = s.got

/-- R101: block `i` of `m` contributes its data and, if `n_i < 255` and it is not the last block, one zero. -/
def Obligations.ImpliedSeparator : Prop :=
  ∀ bs : List Block, payloadOf bs =
    (bs.mapIdx (fun i b => b.data ++ if b.n < 255 ∧ i + 1 < bs.length then [0x00#8] else [])).flatten

/-- R105: a failing DECODE delivers no payload bytes: whichever step ends in DONE_FAIL leaves `OLEN = 0` and nothing of
`OBUF` specified, and records a cause. -/
def Obligations.FailureLeavesNoPartialResult : Prop :=
  ∀ s t : State, step s = .next t → s.status ≠ .doneFail → t.status = .doneFail →
    t.olen = 0 ∧ UnspecifiedFrom 0 t ∧ t.err ≠ .none ∧ t.epos = s.rp ∧ SameOperands s t

/-- R98: data bytes are not inspected: one block that fills the input gives back its data, whatever they are, with or
without a terminator after it. -/
def Obligations.DataBytesNotInspected : Prop :=
  ∀ d : List Byte, d.length ≤ 254 →
    dec (BitVec.ofNat 8 (d.length + 1) :: d) = .ok d ∧ dec (BitVec.ofNat 8 (d.length + 1) :: (d ++ [0#8])) = .ok d

/-- R115: a failure is found at a header position, and its cause is exactly what the byte there says. -/
def Obligations.FailureCausesExact : Prop :=
  ∀ (f : List Byte) (cause : Cause) (pos : Nat), dec f = .fail cause pos →
    pos < f.length ∧
    (cause = .truncatedFrame → 1 ≤ (f.getD pos 0#8).toNat ∧ (f.getD pos 0#8).toNat - 1 > f.length - (pos + 1)) ∧
    (cause = .invalidLengthByte → f.getD pos 0#8 = 0#8 ∧ pos < f.length - 1)

/-- R51, R60, R107: a well-formed frame parses to its blocks, whatever they are; so DECODE never fails on it. -/
def Obligations.WellFormedFrameParses : Prop :=
  (∀ bs : List Block, (∀ b ∈ bs, b.wf = true) → parse (ser bs ++ [0#8]) = .ok bs) ∧
  ∀ f : List Byte, wfFrame f → ∃ v, dec f = .ok v

/-- R110: the parser undoes the frame writer. -/
def Obligations.ParserUndoesWriter : Prop := ∀ p : List Byte, parse (enc p) = .ok (blocks p)

/-- R111: `dec(enc(p)) = Ok(p)` exactly for the round-trip safe payloads; short, zero-free and all-zero payloads are. -/
def Obligations.RoundTripExactDomain : Prop :=
  ∀ p : List Byte, (dec (enc p) = .ok p ↔ roundTripSafe p = true) ∧ (p.length < 255 → roundTripSafe p = true) ∧
    ((∀ b ∈ p, b ≠ 0#8) → roundTripSafe p = true) ∧ ((∀ b ∈ p, b = 0#8) → roundTripSafe p = true)

/-- R112: outside that domain too decoding succeeds, with the payload less its untraced separators. -/
def Obligations.RoundTripOutsideDomain : Prop := ∀ p : List Byte, dec (enc p) = .ok (withoutLost p)

/-- R109: a decoded payload is shorter than the frame. -/
def Obligations.DecodedLengthBound : Prop :=
  ∀ f v : List Byte, dec f = .ok v → v.length ≤ f.length - 1

/-- R108: the decoder is not injective. -/
def Obligations.DecoderNotInjective : Prop :=
  (dec [] = .ok [] ∧ dec [0x00#8] = .ok [] ∧ dec [0x01#8] = .ok [] ∧ dec [0x01#8, 0x00#8] = .ok []) ∧
  ∀ d : List Byte, d.length = 254 →
    dec (0xFF#8 :: (d ++ [0x00#8])) = .ok d ∧ dec (0xFF#8 :: (d ++ [0x01#8, 0x00#8])) = .ok d

/-! ## The whole machine -/

/-- The invariant holds after reset, for every choice of the parameters that R4 admits. -/
def Obligations.ResetEstablishesInvariant : Prop :=
  Sound State.reset ∧ ∀ c : Config, 1 ≤ c.nmax → Sound (State.resetWith c)

/-- Every step keeps the invariant, whoever makes it. -/
def Obligations.StepKeepsInvariant : Prop := ∀ s t : State, Sound s → step s = .next t → Sound t

/-- R34: from a sound state the core never forms an index outside a buffer, and its own turn is never refused. -/
def Obligations.CoreStaysInsideBuffers : Prop :=
  ∀ s : State, Sound s → (∀ r, step s ≠ .fault r) ∧ ∃ t, coreStep s = .next t

/-- R149: every started operation completes, from every sound state in which it runs. -/
def Obligations.StartedOperationCompletes : Prop :=
  ∀ s : State, Sound s → isBusy s = true → s.host = [] → ∃ t, steps (s.ilen + 2) s = .next t ∧ isBusy t = false

/-- R15, R115: only a running DECODE completes with DONE_FAIL. -/
def Obligations.OnlyDecodeFails : Prop :=
  ∀ s t : State, step s = .next t → t.status = .doneFail → s.status = .doneFail ∨ s.status = .busy .decode

/-- R11, R13, R17, R25, R31: no step but a write or a reset by the host changes the parameters, `ILEN`, `SARG` or a byte of
`IBUF`; and nothing changes the parameters. -/
def Obligations.OnlyHostWritesOperands : Prop :=
  ∀ s t : State, step s = .next t → t.cfg = s.cfg ∧
    ((∀ i b rest, s.host ≠ .wrIbuf i b :: rest) → (∀ v rest, s.host ≠ .wrIlen v :: rest) →
      (∀ v rest, s.host ≠ .wrSarg v :: rest) → (∀ rest, s.host ≠ .rst :: rest) → SameOperands s t)

/-- R13, R18, R66: `SRES` is written only by the completion of SIZE (and by a reset), and that completion leaves `OLEN` and
every byte of `OBUF`. -/
def Obligations.OnlySizeWritesSres : Prop :=
  ∀ s t : State, step s = .next t → (∀ rest, s.host ≠ .rst :: rest) →
    (t.sres ≠ s.sres → s.status = .busy .size) ∧
    (s.status = .busy .size → t.olen = s.olen ∧ ∀ a, readObuf t a = readObuf s a)

/-- R24: an operation's result depends only on its operand: two cores that agree on `ILEN` and `IBUF[0..ILEN)`, and on
nothing else, end ENCODE and DECODE with the same `STATUS`, `ERR`, `EPOS`, `OLEN` and result; two that agree on `SARG` end
SIZE with the same `SRES`. -/
def Obligations.OutcomeDependsOnlyOnOperand : Prop :=
  ∀ (i : Instr) (s s' t t' u u' : State) (k : Nat), s.host = [] → s'.host = [] →
    exec i s = .next t → exec i s' = .next t' → s.ilen + 2 ≤ k → steps k t = .next u → steps k t' = .next u' →
    (i = .size → s.sarg = s'.sarg → u.status = u'.status ∧ u.err = u'.err ∧ u.epos = u'.epos ∧ u.sres = u'.sres) ∧
    (i = .encode ∨ i = .decode → s.ilen = s'.ilen → (∀ a, a < s.ilen → readIbuf s a = readIbuf s' a) →
      u.status = u'.status ∧ u.err = u'.err ∧ u.epos = u'.epos ∧ u.olen = u'.olen ∧ result u = result u')
end

