-- ==== Sys2Proof/Laws/Codec.lean ====
section
/-! SUPPORT. Laws/Codec.lean: the small lemmas of the functions over byte sequences: their defining equations, with the
bounds on depth gone. -/

namespace Sys2Proof.Machine

/-! ### The size estimator -/

@[simp] theorem esize_zero : esize 0 = 1 := rfl

theorem esize_mono {a b : Nat} (h : a ≤ b) : esize a ≤ esize b := by
  unfold esize
  omega

theorem le_esize (n : Nat) : n + 1 ≤ esize n := by
  unfold esize
  omega

theorem le_fmax (c : Config) : c.nmax + 1 ≤ fmax c := le_esize _

theorem fmax_lt_two_pow (c : Config) : fmax c < 2 ^ lw c := Nat.lt_log2_self

/-! ### Runs and chunks -/

theorem split0_ne_nil (p : List Byte) : split0 p ≠ [] := by
  induction p with
  | nil => simp [split0]
  | cons b p ih =>
    rw [split0]
    split
    · simp
    · split <;> simp

theorem split0_zero (p : List Byte) : split0 (0#8 :: p) = [] :: split0 p := by simp [split0]

theorem split0_nonzero {b : Byte} {p r : List Byte} {rs : List (List Byte)} (hb : b ≠ 0#8) (h : split0 p = r :: rs) :
    split0 (b :: p) = (b :: r) :: rs := by
  simp [split0, hb, h]

/-- A zero-free list is one run. -/
theorem split0_of_zero_free {p : List Byte} (h : ∀ b ∈ p, b ≠ 0#8) : split0 p = [p] := by
  induction p with
  | nil => rfl
  | cons b p ih => exact split0_nonzero (h b (by simp)) (ih fun c hc => h c (by simp [hc]))

theorem chunkFuel_of_le {k : Nat} {r : List Byte} (h : r.length ≤ 254) : chunkFuel k r = [⟨r.length + 1, r⟩] := by
  cases k with
  | zero => rfl
  | succ k => rw [chunkFuel, if_neg (by omega)]

/-- Any two bounds that are long enough give the same chunks. -/
theorem chunkFuel_congr {k k' : Nat} {r : List Byte} (h : r.length ≤ k) (h' : r.length ≤ k') :
    chunkFuel k r = chunkFuel k' r := by
  induction k generalizing r k' with
  | zero => rw [chunkFuel_of_le (by omega), chunkFuel_of_le (by omega)]
  | succ k ih =>
    by_cases hr : r.length > 254
    · obtain ⟨k'', rfl⟩ : ∃ k'', k' = k'' + 1 := ⟨k' - 1, by omega⟩
      have hd : (r.drop 254).length = r.length - 254 := List.length_drop
      rw [chunkFuel, chunkFuel, if_pos hr, if_pos hr, ih (k' := k'') (by omega) (by omega)]
    · rw [chunkFuel_of_le (by omega), chunkFuel_of_le (by omega)]

/-- EMIT_FINAL (R74). -/
theorem chunk_of_le {r : List Byte} (h : r.length ≤ 254) : chunk r = [⟨r.length + 1, r⟩] := chunkFuel_of_le h

/-- EMIT_FULL (R73). -/
theorem chunk_of_gt {r : List Byte} (h : 254 < r.length) : chunk r = ⟨255, r.take 254⟩ :: chunk (r.drop 254) := by
  obtain ⟨k, hk⟩ : ∃ k, r.length = k + 1 := ⟨r.length - 1, by omega⟩
  rw [chunk, hk, chunkFuel, if_pos (by omega)]
  congr 1
  exact chunkFuel_congr (by simp; omega) (by simp)

@[simp] theorem blocks_nil : blocks [] = [] := rfl

theorem blocks_of_ne_nil {p : List Byte} (h : p ≠ []) : blocks p = (split0 p).flatMap chunk := by simp [blocks, h]

/-! ### Serialising -/

@[simp] theorem ser_nil : ser [] = [] := rfl

theorem ser_cons (b : Block) (bs : List Block) : ser (b :: bs) = BitVec.ofNat 8 b.n :: (b.data ++ ser bs) := rfl

theorem ser_append (bs cs : List Block) : ser (bs ++ cs) = ser bs ++ ser cs := by
  induction bs with
  | nil => rfl
  | cons b bs ih => simp [ser_cons, ih]

/-! ### The parser -/

theorem parseGo_succ (f : List Byte) (k c : Nat) (acc : List Block) :
    parseGo f (k + 1) c acc =
      if c = f.length then .ok acc
      else if (f.getD c 0#8).toNat = 0 ∧ c = f.length - 1 then .ok acc
      else if (f.getD c 0#8).toNat = 0 then .fail .invalidLengthByte c
      else if (f.getD c 0#8).toNat - 1 > f.length - (c + 1) then .fail .truncatedFrame c
      else parseGo f k (c + (f.getD c 0#8).toNat)
        (acc ++ [⟨(f.getD c 0#8).toNat, (f.drop (c + 1)).take ((f.getD c 0#8).toNat - 1)⟩]) := rfl

/-- Any two bounds that are long enough give the same parse (R99). -/
theorem parseGo_congr {f : List Byte} {k k' c : Nat} {acc : List Block} (hc : c ≤ f.length)
    (h : f.length - c < k) (h' : f.length - c < k') : parseGo f k c acc = parseGo f k' c acc := by
  induction k generalizing k' c acc with
  | zero => omega
  | succ k ih =>
    obtain ⟨k'', rfl⟩ : ∃ k'', k' = k'' + 1 := ⟨k' - 1, by omega⟩
    rw [parseGo_succ, parseGo_succ]
    split_ifs with h1 h2 h3 h4 <;> try rfl
    exact ih (by omega) (by omega) (by omega)

@[simp] theorem payloadOf_nil : payloadOf [] = [] := rfl
@[simp] theorem payloadOf_single (b : Block) : payloadOf [b] = b.data := rfl
theorem payloadOf_cons_cons (b b' : Block) (bs : List Block) :
    payloadOf (b :: b' :: bs) = b.data ++ (if b.n < 255 then [0#8] else []) ++ payloadOf (b' :: bs) := rfl

end Sys2Proof.Machine
end

