-- ==== Sys2Proof/Laws/Memory.lean ====
section
/-! SUPPORT. Laws/Memory.lean: the laws of the buffers' contents: read after write, and that every operation keeps the
canonical form and the bounds. -/

namespace Sys2Proof.Machine

/-! ### The operations, one entry at a time -/

@[simp] theorem get?_nil (a : Nat) : Memory.get? [] a = none := rfl

theorem get?_cons (c : Host.Cell) (m : Memory) (a : Nat) :
    Memory.get? (c :: m) a = if a = c.1 then some c.2 else if a < c.1 then none else m.get? a := by
  simp only [Memory.get?, cond_eq_ite, Nat.beq_eq, Nat.blt_eq]

@[simp] theorem keepBelow_nil (n : Nat) : Memory.keepBelow [] n = [] := rfl

theorem keepBelow_cons (c : Host.Cell) (m : Memory) (n : Nat) :
    Memory.keepBelow (c :: m) n = if c.1 < n then c :: m.keepBelow n else [] := by
  simp only [Memory.keepBelow, cond_eq_ite, Nat.blt_eq]

@[simp] theorem dropBelow_nil (n : Nat) : Memory.dropBelow [] n = [] := rfl

theorem dropBelow_cons (c : Host.Cell) (m : Memory) (n : Nat) :
    Memory.dropBelow (c :: m) n = if c.1 < n then m.dropBelow n else c :: m := by
  simp only [Memory.dropBelow, cond_eq_ite, Nat.blt_eq]

/-! ### Reads -/

theorem get?_of_head {m : Memory} {a : Nat} (h : ∀ c ∈ m.head?, a < c.1) : m.get? a = none := by
  cases m with
  | nil => rfl
  | cons c m =>
    have := h c (by simp)
    rw [get?_cons, if_neg (by omega), if_pos this]

theorem get?_append_of_lt {l : Memory} (m : Memory) {a : Nat} (h : ∀ c ∈ l, c.1 < a) : (l ++ m).get? a = m.get? a := by
  induction l with
  | nil => rfl
  | cons c l ih =>
    have := h c (by simp)
    rw [List.cons_append, get?_cons, if_neg (by omega), if_neg (by omega), ih fun d hd => h d (by simp [hd])]

theorem keepBelow_lt (m : Memory) (n : Nat) : ∀ c ∈ m.keepBelow n, c.1 < n := by
  induction m with
  | nil => simp
  | cons c m ih =>
    rw [keepBelow_cons]
    split
    · simpa [*] using ih
    · simp

theorem dropBelow_head (m : Memory) (n : Nat) : ∀ c ∈ (m.dropBelow n).head?, n ≤ c.1 := by
  induction m with
  | nil => simp
  | cons c m ih =>
    rw [dropBelow_cons]
    split
    · exact ih
    · intro d hd
      simp only [List.head?_cons, Option.mem_def, Option.some.injEq] at hd
      subst hd
      omega

theorem get?_keepBelow_append {m l : Memory} {n a : Nat} (ha : a < n) (hl : ∀ c ∈ l.head?, n ≤ c.1) :
    (m.keepBelow n ++ l).get? a = m.get? a := by
  induction m with
  | nil => exact get?_of_head fun c hc => by have := hl c hc; omega
  | cons c m ih =>
    rw [keepBelow_cons]
    split
    · rw [List.cons_append, get?_cons, get?_cons, ih]
    · rw [List.nil_append, get?_of_head fun d hd => by have := hl d hd; omega, get?_cons, if_neg (by omega),
        if_pos (by omega)]

theorem get?_dropBelow {m : Memory} {n a : Nat} (ha : n ≤ a) : (m.dropBelow n).get? a = m.get? a := by
  induction m with
  | nil => rfl
  | cons c m ih =>
    rw [dropBelow_cons]
    split
    · rw [ih, get?_cons, if_neg (by omega), if_neg (by omega)]
    · rfl

theorem cellsFrom_bounds (bs : List Byte) (a : Nat) : ∀ c ∈ Memory.cellsFrom a bs, a ≤ c.1 ∧ c.1 < a + bs.length := by
  induction bs generalizing a with
  | nil => simp [Memory.cellsFrom]
  | cons b bs ih =>
    intro c hc
    simp only [Memory.cellsFrom, List.mem_cons] at hc
    simp only [List.length_cons]
    rcases hc with rfl | hc
    · simp only; omega
    · have := ih (a + 1) c hc
      omega

theorem get?_cellsFrom_append (bs : List Byte) (l : Memory) (a : Nat) {j : Nat} (h : j < bs.length) :
    (Memory.cellsFrom a bs ++ l).get? (a + j) = some bs[j] := by
  induction bs generalizing a j with
  | nil => simp at h
  | cons b bs ih =>
    rw [Memory.cellsFrom, List.cons_append, get?_cons]
    cases j with
    | zero => simp
    | succ j =>
      rw [if_neg (by simp only; omega), if_neg (by simp only; omega), show a + (j + 1) = a + 1 + j by omega,
        ih (a + 1) (by simpa using h)]
      simp

theorem get?_writeList_outside (bs : List Byte) (m : Memory) {a i : Nat} (h : i < a ∨ a + bs.length ≤ i) :
    (m.writeList a bs).get? i = m.get? i := by
  rw [Memory.writeList]
  rcases Nat.lt_or_ge i a with hi | hi
  · refine get?_keepBelow_append hi fun c hc => ?_
    cases bs with
    | nil => exact dropBelow_head m _ c hc
    | cons b bs =>
      simp only [Memory.cellsFrom, List.cons_append, List.head?_cons, Option.mem_def, Option.some.injEq] at hc
      subst hc
      exact Nat.le_refl _
  · rw [get?_append_of_lt _ fun c hc => by have := keepBelow_lt m a c hc; omega,
      get?_append_of_lt _ fun c hc => by have := cellsFrom_bounds bs a c hc; omega, get?_dropBelow (by omega)]

theorem get?_writeList_inside (bs : List Byte) (m : Memory) (a : Nat) {j : Nat} (h : j < bs.length) :
    (m.writeList a bs).get? (a + j) = some bs[j] := by
  rw [Memory.writeList, get?_append_of_lt _ fun c hc => by have := keepBelow_lt m a c hc; omega,
    get?_cellsFrom_append bs _ a h]

@[simp] theorem get?_write_same (m : Memory) (a : Nat) (b : Byte) : (m.write a b).get? a = some b :=
  get?_writeList_inside [b] m a (j := 0) (by simp)

theorem get?_write_other (m : Memory) {a a' : Nat} (b : Byte) (h : a' ≠ a) : (m.write a b).get? a' = m.get? a' :=
  get?_writeList_outside [b] m (by simp only [List.length_singleton]; omega)

theorem get?_keepBelow (m : Memory) (n a : Nat) :
    (m.keepBelow n).get? a = if a < n then m.get? a else none := by
  split
  · rename_i h
    simpa using get?_keepBelow_append (m := m) (l := []) h (by simp)
  · rename_i h
    simpa using get?_append_of_lt (l := m.keepBelow n) [] (a := a) fun c hc => by have := keepBelow_lt m n c hc; omega

/-! ### The canonical form -/

theorem wf_iff_pairwise {m : Memory} : m.wf = true ↔ m.Pairwise (fun c d => c.1 < d.1) := by
  induction m with
  | nil => simp [Memory.wf]
  | cons c m ih =>
    obtain ⟨k, v⟩ := c
    cases m with
    | nil => simp [Memory.wf]
    | cons d m =>
      obtain ⟨k', v'⟩ := d
      simp only [Memory.wf, Bool.and_eq_true, decide_eq_true_eq, ih, List.pairwise_cons, List.mem_cons]
      constructor
      · rintro ⟨h1, h2, h3⟩
        refine ⟨?_, h2, h3⟩
        rintro e (rfl | he)
        · exact h1
        · exact Nat.lt_trans h1 (h2 e he)
      · rintro ⟨h1, h2, h3⟩
        exact ⟨h1 _ (.inl rfl), h2, h3⟩

theorem keepBelow_sublist (m : Memory) (n : Nat) : (m.keepBelow n).Sublist m := by
  induction m with
  | nil => exact .slnil
  | cons c m ih =>
    rw [keepBelow_cons]
    split
    · exact ih.cons_cons c
    · exact List.nil_sublist _

theorem dropBelow_sublist (m : Memory) (n : Nat) : (m.dropBelow n).Sublist m := by
  induction m with
  | nil => exact .slnil
  | cons c m ih =>
    rw [dropBelow_cons]
    split
    · exact ih.cons c
    · exact .refl _

theorem cellsFrom_pairwise (bs : List Byte) (a : Nat) : (Memory.cellsFrom a bs).Pairwise (fun c d => c.1 < d.1) := by
  induction bs generalizing a with
  | nil => exact .nil
  | cons b bs ih => exact .cons (fun c hc => (cellsFrom_bounds bs (a + 1) c hc).1) (ih (a + 1))

theorem dropBelow_ge {m : Memory} (n : Nat) (h : m.wf = true) : ∀ c ∈ m.dropBelow n, n ≤ c.1 := by
  have hp : (m.dropBelow n).Pairwise (fun c d => c.1 < d.1) := (wf_iff_pairwise.1 h).sublist (dropBelow_sublist m n)
  have hh := dropBelow_head m n
  cases hd : m.dropBelow n with
  | nil => simp
  | cons d l =>
    rw [hd] at hp hh
    intro c hc
    have hn := hh d (by simp)
    rcases List.mem_cons.1 hc with rfl | hc
    · exact hn
    · have := (List.pairwise_cons.1 hp).1 c hc
      omega

theorem writeList_wf (bs : List Byte) (m : Memory) (a : Nat) (h : m.wf = true) : (m.writeList a bs).wf = true := by
  have hm := wf_iff_pairwise.1 h
  refine wf_iff_pairwise.2 (List.pairwise_append.2 ⟨hm.sublist (keepBelow_sublist m a), List.pairwise_append.2
    ⟨cellsFrom_pairwise bs a, hm.sublist (dropBelow_sublist m _), fun c hc d hd => ?_⟩, fun c hc d hd => ?_⟩)
  · have := cellsFrom_bounds bs a c hc
    have := dropBelow_ge _ h d hd
    omega
  · have := keepBelow_lt m a c hc
    rcases List.mem_append.1 hd with hd | hd
    · have := cellsFrom_bounds bs a d hd
      omega
    · have := dropBelow_ge _ h d hd
      omega

theorem write_wf (m : Memory) (a : Nat) (b : Byte) (h : m.wf = true) : (m.write a b).wf = true := writeList_wf [b] m a h

theorem keepBelow_wf (m : Memory) (n : Nat) (h : m.wf = true) : (m.keepBelow n).wf = true :=
  wf_iff_pairwise.2 ((wf_iff_pairwise.1 h).sublist (keepBelow_sublist m n))

theorem reset_ibuf_wf (c : Config) : (State.resetWith c).ibuf.wf = true := rfl
theorem reset_obuf_wf (c : Config) : (State.resetWith c).obuf.wf = true := rfl

/-! ### The bounds -/

theorem writeList_inside {bs : List Byte} {m : Memory} {a n : Nat} (hm : ∀ c ∈ m, c.1 < n) (h : a + bs.length ≤ n) :
    ∀ c ∈ m.writeList a bs, c.1 < n := by
  intro c hc
  rcases List.mem_append.1 hc with hc | hc
  · exact hm c ((keepBelow_sublist m a).subset hc)
  · rcases List.mem_append.1 hc with hc | hc
    · have := cellsFrom_bounds bs a c hc
      omega
    · exact hm c ((dropBelow_sublist m _).subset hc)

theorem keepBelow_subset (m : Memory) (n : Nat) : ∀ c ∈ m.keepBelow n, c ∈ m := fun _ hc =>
  (keepBelow_sublist m n).subset hc

end Sys2Proof.Machine
end

