-- ==== Sys2Proof/Laws/State.lean ====
section
/-! SUPPORT. Laws/State.lean: every field after every named update of the state, by `rfl`, so that no proof unfolds a
record update. -/

namespace Sys2Proof.Machine

/-! ### After a start, common part (R46) -/

@[simp] theorem startFlags_cfg (op : Op) (s : State) : (startFlags op s).cfg = s.cfg := rfl
@[simp] theorem startFlags_ilen (op : Op) (s : State) : (startFlags op s).ilen = s.ilen := rfl
@[simp] theorem startFlags_olen (op : Op) (s : State) : (startFlags op s).olen = s.olen := rfl
@[simp] theorem startFlags_sarg (op : Op) (s : State) : (startFlags op s).sarg = s.sarg := rfl
@[simp] theorem startFlags_sres (op : Op) (s : State) : (startFlags op s).sres = s.sres := rfl
@[simp] theorem startFlags_status (op : Op) (s : State) : (startFlags op s).status = .busy op := rfl
@[simp] theorem startFlags_err (op : Op) (s : State) : (startFlags op s).err = .none := rfl
@[simp] theorem startFlags_epos (op : Op) (s : State) : (startFlags op s).epos = 0 := rfl
@[simp] theorem startFlags_ibuf (op : Op) (s : State) : (startFlags op s).ibuf = s.ibuf := rfl
@[simp] theorem startFlags_obuf (op : Op) (s : State) : (startFlags op s).obuf = s.obuf := rfl
@[simp] theorem startFlags_fp (op : Op) (s : State) : (startFlags op s).fp = s.fp := rfl
@[simp] theorem startFlags_fdone (op : Op) (s : State) : (startFlags op s).fdone = s.fdone := rfl
@[simp] theorem startFlags_rp (op : Op) (s : State) : (startFlags op s).rp = s.rp := rfl
@[simp] theorem startFlags_wp (op : Op) (s : State) : (startFlags op s).wp = s.wp := rfl
@[simp] theorem startFlags_pend (op : Op) (s : State) : (startFlags op s).pend = s.pend := rfl
@[simp] theorem startFlags_host (op : Op) (s : State) : (startFlags op s).host = s.host := rfl
@[simp] theorem startFlags_got (op : Op) (s : State) : (startFlags op s).got = s.got := rfl
@[simp] theorem startFlags_ibufDraw (op : Op) (s : State) : (startFlags op s).ibufDraw = s.ibufDraw := rfl
@[simp] theorem startFlags_obufDraw (op : Op) (s : State) : (startFlags op s).obufDraw = s.obufDraw := rfl

/-! ### After the start of ENCODE (R46, R19) -/

@[simp] theorem startEncode_cfg (s : State) : (startEncode s).cfg = s.cfg := rfl
@[simp] theorem startEncode_ilen (s : State) : (startEncode s).ilen = s.ilen := rfl
@[simp] theorem startEncode_olen (s : State) : (startEncode s).olen = 0 := rfl
@[simp] theorem startEncode_sarg (s : State) : (startEncode s).sarg = s.sarg := rfl
@[simp] theorem startEncode_sres (s : State) : (startEncode s).sres = s.sres := rfl
@[simp] theorem startEncode_status (s : State) : (startEncode s).status = .busy .encode := rfl
@[simp] theorem startEncode_err (s : State) : (startEncode s).err = .none := rfl
@[simp] theorem startEncode_epos (s : State) : (startEncode s).epos = 0 := rfl
@[simp] theorem startEncode_ibuf (s : State) : (startEncode s).ibuf = s.ibuf := rfl
@[simp] theorem startEncode_obuf (s : State) : (startEncode s).obuf = s.obuf := rfl
@[simp] theorem startEncode_fp (s : State) : (startEncode s).fp = 0 := rfl
@[simp] theorem startEncode_fdone (s : State) : (startEncode s).fdone = decide (s.ilen = 0) := rfl
@[simp] theorem startEncode_rp (s : State) : (startEncode s).rp = s.rp := rfl
@[simp] theorem startEncode_wp (s : State) : (startEncode s).wp = 0 := rfl
@[simp] theorem startEncode_pend (s : State) : (startEncode s).pend = s.pend := rfl
@[simp] theorem startEncode_host (s : State) : (startEncode s).host = s.host := rfl
@[simp] theorem startEncode_got (s : State) : (startEncode s).got = s.got := rfl
@[simp] theorem startEncode_ibufDraw (s : State) : (startEncode s).ibufDraw = s.ibufDraw := rfl
@[simp] theorem startEncode_obufDraw (s : State) : (startEncode s).obufDraw = s.obufDraw := rfl

/-! ### After the start of DECODE (R46, R19) -/

@[simp] theorem startDecode_cfg (s : State) : (startDecode s).cfg = s.cfg := rfl
@[simp] theorem startDecode_ilen (s : State) : (startDecode s).ilen = s.ilen := rfl
@[simp] theorem startDecode_olen (s : State) : (startDecode s).olen = 0 := rfl
@[simp] theorem startDecode_sarg (s : State) : (startDecode s).sarg = s.sarg := rfl
@[simp] theorem startDecode_sres (s : State) : (startDecode s).sres = s.sres := rfl
@[simp] theorem startDecode_status (s : State) : (startDecode s).status = .busy .decode := rfl
@[simp] theorem startDecode_err (s : State) : (startDecode s).err = .none := rfl
@[simp] theorem startDecode_epos (s : State) : (startDecode s).epos = 0 := rfl
@[simp] theorem startDecode_ibuf (s : State) : (startDecode s).ibuf = s.ibuf := rfl
@[simp] theorem startDecode_obuf (s : State) : (startDecode s).obuf = s.obuf := rfl
@[simp] theorem startDecode_fp (s : State) : (startDecode s).fp = s.fp := rfl
@[simp] theorem startDecode_fdone (s : State) : (startDecode s).fdone = s.fdone := rfl
@[simp] theorem startDecode_rp (s : State) : (startDecode s).rp = 0 := rfl
@[simp] theorem startDecode_wp (s : State) : (startDecode s).wp = 0 := rfl
@[simp] theorem startDecode_pend (s : State) : (startDecode s).pend = false := rfl
@[simp] theorem startDecode_host (s : State) : (startDecode s).host = s.host := rfl
@[simp] theorem startDecode_got (s : State) : (startDecode s).got = s.got := rfl
@[simp] theorem startDecode_ibufDraw (s : State) : (startDecode s).ibufDraw = s.ibufDraw := rfl
@[simp] theorem startDecode_obufDraw (s : State) : (startDecode s).obufDraw = s.obufDraw := rfl

/-! ### After the completion of SIZE (R66) -/

@[simp] theorem completeSize_cfg (s : State) : (completeSize s).cfg = s.cfg := rfl
@[simp] theorem completeSize_ilen (s : State) : (completeSize s).ilen = s.ilen := rfl
@[simp] theorem completeSize_olen (s : State) : (completeSize s).olen = s.olen := rfl
@[simp] theorem completeSize_sarg (s : State) : (completeSize s).sarg = s.sarg := rfl
@[simp] theorem completeSize_sres (s : State) : (completeSize s).sres = esize s.sarg := rfl
@[simp] theorem completeSize_status (s : State) : (completeSize s).status = .doneOk := rfl
@[simp] theorem completeSize_err (s : State) : (completeSize s).err = s.err := rfl
@[simp] theorem completeSize_epos (s : State) : (completeSize s).epos = s.epos := rfl
@[simp] theorem completeSize_ibuf (s : State) : (completeSize s).ibuf = s.ibuf := rfl
@[simp] theorem completeSize_obuf (s : State) : (completeSize s).obuf = s.obuf := rfl
@[simp] theorem completeSize_fp (s : State) : (completeSize s).fp = s.fp := rfl
@[simp] theorem completeSize_fdone (s : State) : (completeSize s).fdone = s.fdone := rfl
@[simp] theorem completeSize_rp (s : State) : (completeSize s).rp = s.rp := rfl
@[simp] theorem completeSize_wp (s : State) : (completeSize s).wp = s.wp := rfl
@[simp] theorem completeSize_pend (s : State) : (completeSize s).pend = s.pend := rfl
@[simp] theorem completeSize_host (s : State) : (completeSize s).host = s.host := rfl
@[simp] theorem completeSize_got (s : State) : (completeSize s).got = s.got := rfl
@[simp] theorem completeSize_ibufDraw (s : State) : (completeSize s).ibufDraw = s.ibufDraw := rfl
@[simp] theorem completeSize_obufDraw (s : State) : (completeSize s).obufDraw = s.obufDraw := rfl

/-! ### After failure entry (R122) -/

@[simp] theorem raiseFailure_cfg (cause : Cause) (pos : Nat) (s : State) : (raiseFailure cause pos s).cfg = s.cfg := rfl
@[simp] theorem raiseFailure_ilen (cause : Cause) (pos : Nat) (s : State) : (raiseFailure cause pos s).ilen = s.ilen := rfl
@[simp] theorem raiseFailure_olen (cause : Cause) (pos : Nat) (s : State) : (raiseFailure cause pos s).olen = 0 := rfl
@[simp] theorem raiseFailure_sarg (cause : Cause) (pos : Nat) (s : State) : (raiseFailure cause pos s).sarg = s.sarg := rfl
@[simp] theorem raiseFailure_sres (cause : Cause) (pos : Nat) (s : State) : (raiseFailure cause pos s).sres = s.sres := rfl
@[simp] theorem raiseFailure_status (cause : Cause) (pos : Nat) (s : State) : (raiseFailure cause pos s).status = .doneFail := rfl
@[simp] theorem raiseFailure_err (cause : Cause) (pos : Nat) (s : State) : (raiseFailure cause pos s).err = causeErr cause := rfl
@[simp] theorem raiseFailure_epos (cause : Cause) (pos : Nat) (s : State) : (raiseFailure cause pos s).epos = pos := rfl
@[simp] theorem raiseFailure_ibuf (cause : Cause) (pos : Nat) (s : State) : (raiseFailure cause pos s).ibuf = s.ibuf := rfl
@[simp] theorem raiseFailure_obuf (cause : Cause) (pos : Nat) (s : State) : (raiseFailure cause pos s).obuf = [] := rfl
@[simp] theorem raiseFailure_fp (cause : Cause) (pos : Nat) (s : State) : (raiseFailure cause pos s).fp = s.fp := rfl
@[simp] theorem raiseFailure_fdone (cause : Cause) (pos : Nat) (s : State) : (raiseFailure cause pos s).fdone = s.fdone := rfl
@[simp] theorem raiseFailure_rp (cause : Cause) (pos : Nat) (s : State) : (raiseFailure cause pos s).rp = s.rp := rfl
@[simp] theorem raiseFailure_wp (cause : Cause) (pos : Nat) (s : State) : (raiseFailure cause pos s).wp = s.wp := rfl
@[simp] theorem raiseFailure_pend (cause : Cause) (pos : Nat) (s : State) : (raiseFailure cause pos s).pend = s.pend := rfl
@[simp] theorem raiseFailure_host (cause : Cause) (pos : Nat) (s : State) : (raiseFailure cause pos s).host = s.host := rfl
@[simp] theorem raiseFailure_got (cause : Cause) (pos : Nat) (s : State) : (raiseFailure cause pos s).got = s.got := rfl
@[simp] theorem raiseFailure_ibufDraw (cause : Cause) (pos : Nat) (s : State) : (raiseFailure cause pos s).ibufDraw = s.ibufDraw := rfl
@[simp] theorem raiseFailure_obufDraw (cause : Cause) (pos : Nat) (s : State) : (raiseFailure cause pos s).obufDraw = s.obufDraw + 1 := rfl

/-! ### After the delivery of a result (R79, R104) -/

@[simp] theorem deliver_cfg (s : State) : (deliver s).cfg = s.cfg := rfl
@[simp] theorem deliver_ilen (s : State) : (deliver s).ilen = s.ilen := rfl
@[simp] theorem deliver_olen (s : State) : (deliver s).olen = s.wp := rfl
@[simp] theorem deliver_sarg (s : State) : (deliver s).sarg = s.sarg := rfl
@[simp] theorem deliver_sres (s : State) : (deliver s).sres = s.sres := rfl
@[simp] theorem deliver_status (s : State) : (deliver s).status = .doneOk := rfl
@[simp] theorem deliver_err (s : State) : (deliver s).err = s.err := rfl
@[simp] theorem deliver_epos (s : State) : (deliver s).epos = s.epos := rfl
@[simp] theorem deliver_ibuf (s : State) : (deliver s).ibuf = s.ibuf := rfl
@[simp] theorem deliver_obuf (s : State) : (deliver s).obuf = s.obuf.keepBelow s.wp := rfl
@[simp] theorem deliver_fp (s : State) : (deliver s).fp = s.fp := rfl
@[simp] theorem deliver_fdone (s : State) : (deliver s).fdone = s.fdone := rfl
@[simp] theorem deliver_rp (s : State) : (deliver s).rp = s.rp := rfl
@[simp] theorem deliver_wp (s : State) : (deliver s).wp = s.wp := rfl
@[simp] theorem deliver_pend (s : State) : (deliver s).pend = s.pend := rfl
@[simp] theorem deliver_host (s : State) : (deliver s).host = s.host := rfl
@[simp] theorem deliver_got (s : State) : (deliver s).got = s.got := rfl
@[simp] theorem deliver_ibufDraw (s : State) : (deliver s).ibufDraw = s.ibufDraw := rfl
@[simp] theorem deliver_obufDraw (s : State) : (deliver s).obufDraw = s.obufDraw + 1 := rfl

/-! ### After bytes written at `wp` -/

@[simp] theorem appended_cfg (bs : List Byte) (s : State) : (appended bs s).cfg = s.cfg := rfl
@[simp] theorem appended_ilen (bs : List Byte) (s : State) : (appended bs s).ilen = s.ilen := rfl
@[simp] theorem appended_olen (bs : List Byte) (s : State) : (appended bs s).olen = s.olen := rfl
@[simp] theorem appended_sarg (bs : List Byte) (s : State) : (appended bs s).sarg = s.sarg := rfl
@[simp] theorem appended_sres (bs : List Byte) (s : State) : (appended bs s).sres = s.sres := rfl
@[simp] theorem appended_status (bs : List Byte) (s : State) : (appended bs s).status = s.status := rfl
@[simp] theorem appended_err (bs : List Byte) (s : State) : (appended bs s).err = s.err := rfl
@[simp] theorem appended_epos (bs : List Byte) (s : State) : (appended bs s).epos = s.epos := rfl
@[simp] theorem appended_ibuf (bs : List Byte) (s : State) : (appended bs s).ibuf = s.ibuf := rfl
@[simp] theorem appended_obuf (bs : List Byte) (s : State) : (appended bs s).obuf = s.obuf.writeList s.wp bs := rfl
@[simp] theorem appended_fp (bs : List Byte) (s : State) : (appended bs s).fp = s.fp := rfl
@[simp] theorem appended_fdone (bs : List Byte) (s : State) : (appended bs s).fdone = s.fdone := rfl
@[simp] theorem appended_rp (bs : List Byte) (s : State) : (appended bs s).rp = s.rp := rfl
@[simp] theorem appended_wp (bs : List Byte) (s : State) : (appended bs s).wp = s.wp + bs.length := rfl
@[simp] theorem appended_pend (bs : List Byte) (s : State) : (appended bs s).pend = s.pend := rfl
@[simp] theorem appended_host (bs : List Byte) (s : State) : (appended bs s).host = s.host := rfl
@[simp] theorem appended_got (bs : List Byte) (s : State) : (appended bs s).got = s.got := rfl
@[simp] theorem appended_ibufDraw (bs : List Byte) (s : State) : (appended bs s).ibufDraw = s.ibufDraw := rfl
@[simp] theorem appended_obufDraw (bs : List Byte) (s : State) : (appended bs s).obufDraw = s.obufDraw := rfl

/-! ### After the end of an accepted block (R97, R100) -/

@[simp] theorem closeBlock_cfg (b : BlockRef) (s : State) : (closeBlock b s).cfg = s.cfg := rfl
@[simp] theorem closeBlock_ilen (b : BlockRef) (s : State) : (closeBlock b s).ilen = s.ilen := rfl
@[simp] theorem closeBlock_olen (b : BlockRef) (s : State) : (closeBlock b s).olen = s.olen := rfl
@[simp] theorem closeBlock_sarg (b : BlockRef) (s : State) : (closeBlock b s).sarg = s.sarg := rfl
@[simp] theorem closeBlock_sres (b : BlockRef) (s : State) : (closeBlock b s).sres = s.sres := rfl
@[simp] theorem closeBlock_status (b : BlockRef) (s : State) : (closeBlock b s).status = s.status := rfl
@[simp] theorem closeBlock_err (b : BlockRef) (s : State) : (closeBlock b s).err = s.err := rfl
@[simp] theorem closeBlock_epos (b : BlockRef) (s : State) : (closeBlock b s).epos = s.epos := rfl
@[simp] theorem closeBlock_ibuf (b : BlockRef) (s : State) : (closeBlock b s).ibuf = s.ibuf := rfl
@[simp] theorem closeBlock_obuf (b : BlockRef) (s : State) : (closeBlock b s).obuf = s.obuf := rfl
@[simp] theorem closeBlock_fp (b : BlockRef) (s : State) : (closeBlock b s).fp = s.fp := rfl
@[simp] theorem closeBlock_fdone (b : BlockRef) (s : State) : (closeBlock b s).fdone = s.fdone := rfl
@[simp] theorem closeBlock_rp (b : BlockRef) (s : State) : (closeBlock b s).rp = s.rp + b.n := rfl
@[simp] theorem closeBlock_wp (b : BlockRef) (s : State) : (closeBlock b s).wp = s.wp := rfl
@[simp] theorem closeBlock_pend (b : BlockRef) (s : State) : (closeBlock b s).pend = isShort b.n := rfl
@[simp] theorem closeBlock_host (b : BlockRef) (s : State) : (closeBlock b s).host = s.host := rfl
@[simp] theorem closeBlock_got (b : BlockRef) (s : State) : (closeBlock b s).got = s.got := rfl
@[simp] theorem closeBlock_ibufDraw (b : BlockRef) (s : State) : (closeBlock b s).ibufDraw = s.ibufDraw := rfl
@[simp] theorem closeBlock_obufDraw (b : BlockRef) (s : State) : (closeBlock b s).obufDraw = s.obufDraw := rfl

/-! ### After a value the host has read -/

@[simp] theorem receive_cfg (g : HostGot) (s : State) : (receive g s).cfg = s.cfg := rfl
@[simp] theorem receive_ilen (g : HostGot) (s : State) : (receive g s).ilen = s.ilen := rfl
@[simp] theorem receive_olen (g : HostGot) (s : State) : (receive g s).olen = s.olen := rfl
@[simp] theorem receive_sarg (g : HostGot) (s : State) : (receive g s).sarg = s.sarg := rfl
@[simp] theorem receive_sres (g : HostGot) (s : State) : (receive g s).sres = s.sres := rfl
@[simp] theorem receive_status (g : HostGot) (s : State) : (receive g s).status = s.status := rfl
@[simp] theorem receive_err (g : HostGot) (s : State) : (receive g s).err = s.err := rfl
@[simp] theorem receive_epos (g : HostGot) (s : State) : (receive g s).epos = s.epos := rfl
@[simp] theorem receive_ibuf (g : HostGot) (s : State) : (receive g s).ibuf = s.ibuf := rfl
@[simp] theorem receive_obuf (g : HostGot) (s : State) : (receive g s).obuf = s.obuf := rfl
@[simp] theorem receive_fp (g : HostGot) (s : State) : (receive g s).fp = s.fp := rfl
@[simp] theorem receive_fdone (g : HostGot) (s : State) : (receive g s).fdone = s.fdone := rfl
@[simp] theorem receive_rp (g : HostGot) (s : State) : (receive g s).rp = s.rp := rfl
@[simp] theorem receive_wp (g : HostGot) (s : State) : (receive g s).wp = s.wp := rfl
@[simp] theorem receive_pend (g : HostGot) (s : State) : (receive g s).pend = s.pend := rfl
@[simp] theorem receive_host (g : HostGot) (s : State) : (receive g s).host = s.host := rfl
@[simp] theorem receive_got (g : HostGot) (s : State) : (receive g s).got = g :: s.got := rfl
@[simp] theorem receive_ibufDraw (g : HostGot) (s : State) : (receive g s).ibufDraw = s.ibufDraw := rfl
@[simp] theorem receive_obufDraw (g : HostGot) (s : State) : (receive g s).obufDraw = s.obufDraw := rfl

/-! ### After `RST` (R135) -/

@[simp] theorem resetEvent_cfg (s : State) : (resetEvent s).cfg = s.cfg := rfl
@[simp] theorem resetEvent_ilen (s : State) : (resetEvent s).ilen = 0 := rfl
@[simp] theorem resetEvent_olen (s : State) : (resetEvent s).olen = 0 := rfl
@[simp] theorem resetEvent_sarg (s : State) : (resetEvent s).sarg = 0 := rfl
@[simp] theorem resetEvent_sres (s : State) : (resetEvent s).sres = 0 := rfl
@[simp] theorem resetEvent_status (s : State) : (resetEvent s).status = .idle := rfl
@[simp] theorem resetEvent_err (s : State) : (resetEvent s).err = .none := rfl
@[simp] theorem resetEvent_epos (s : State) : (resetEvent s).epos = 0 := rfl
@[simp] theorem resetEvent_ibuf (s : State) : (resetEvent s).ibuf = [] := rfl
@[simp] theorem resetEvent_obuf (s : State) : (resetEvent s).obuf = [] := rfl
@[simp] theorem resetEvent_fp (s : State) : (resetEvent s).fp = 0 := rfl
@[simp] theorem resetEvent_fdone (s : State) : (resetEvent s).fdone = false := rfl
@[simp] theorem resetEvent_rp (s : State) : (resetEvent s).rp = 0 := rfl
@[simp] theorem resetEvent_wp (s : State) : (resetEvent s).wp = 0 := rfl
@[simp] theorem resetEvent_pend (s : State) : (resetEvent s).pend = false := rfl
@[simp] theorem resetEvent_host (s : State) : (resetEvent s).host = s.host := rfl
@[simp] theorem resetEvent_got (s : State) : (resetEvent s).got = s.got := rfl
@[simp] theorem resetEvent_ibufDraw (s : State) : (resetEvent s).ibufDraw = s.ibufDraw + 1 := rfl
@[simp] theorem resetEvent_obufDraw (s : State) : (resetEvent s).obufDraw = s.obufDraw + 1 := rfl

end Sys2Proof.Machine
end

