-- ==== Sys2Proof/Laws/Ops.lean ====
section
/-! SUPPORT. Laws/Ops.lean: everything the shared operations can do, said once: the inversion lemma of each, and what a
read gives after each update. -/

namespace Sys2Proof.Machine

/-! ### Inversion -/

/-- The spelling of a next state that every inversion lemma uses. -/
theorem next_eq_next {s t : State} : (Host.Outcome.next s : Out) = .next t ↔ t = s := by
  simp only [Host.Outcome.next.injEq]
  exact eq_comm

theorem andThen_next {o : Out} {k : State → Out} {t : State} :
    andThen o k = .next t ↔ ∃ u, o = .next u ∧ k u = .next t := by
  cases o <;> simp [andThen]

theorem appendObuf_next {bs : List Byte} {s t : State} :
    appendObuf bs s = .next t ↔ s.wp + bs.length ≤ fmax s.cfg ∧ t = appended bs s := by
  unfold appendObuf
  split <;> simp_all [-Host.Outcome.next.injEq, next_eq_next]

theorem ifReady_next {s t : State} {k : Out} : ifReady s k = .next t ↔ isBusy s = false ∧ k = .next t := by
  unfold ifReady
  split <;> simp_all

theorem unlessBusy_next {s t : State} {k : Out} : unlessBusy s k = .next t ↔ isBusy s = false ∧ k = .next t := by
  unfold unlessBusy
  split <;> simp_all

/-- Only `STATUS` decides whether the core is BUSY. -/
theorem isBusy_congr {s t : State} (h : t.status = s.status) : isBusy t = isBusy s := by
  simp only [isBusy, h]

@[simp] theorem isBusy_withHost (s : State) (moves : List HostMove) : isBusy { s with host := moves } = isBusy s :=
  isBusy_congr rfl

theorem isBusy_iff {s : State} : isBusy s = true ↔ ∃ op, s.status = .busy op := by
  unfold isBusy
  cases s.status <;> simp

theorem isBusy_false_iff {s : State} : isBusy s = false ↔ ∀ op, s.status ≠ .busy op := by
  unfold isBusy
  cases s.status <;> simp

/-! ### Reads of `IBUF` -/

/-- A read of `IBUF` looks only at the listed bytes and at the counter of resets. -/
theorem readIbuf_congr {s t : State} (h : t.ibuf = s.ibuf) (hd : t.ibufDraw = s.ibufDraw) (a : Nat) :
    readIbuf t a = readIbuf s a := by
  simp [readIbuf, h, hd]

@[simp] theorem readSlice_length (s : State) (start cnt : Nat) : (readSlice s start cnt).length = cnt := by
  simp [readSlice]

@[simp] theorem readSlice_getElem (s : State) (start cnt j : Nat) (h : j < (readSlice s start cnt).length) :
    (readSlice s start cnt)[j] = readIbuf s (start + j) := by
  simp [readSlice]

theorem readSlice_congr {s t : State} (h : t.ibuf = s.ibuf) (hd : t.ibufDraw = s.ibufDraw) (start cnt : Nat) :
    readSlice t start cnt = readSlice s start cnt := by
  simp only [readSlice, List.map_inj_left]
  exact fun a _ => readIbuf_congr h hd a

@[simp] theorem readSlice_zero (s : State) (start : Nat) : readSlice s start 0 = [] := rfl

theorem readSlice_succ (s : State) (start cnt : Nat) :
    readSlice s start (cnt + 1) = readIbuf s start :: readSlice s (start + 1) cnt := rfl

theorem readSlice_append (s : State) (start a b : Nat) :
    readSlice s start (a + b) = readSlice s start a ++ readSlice s (start + a) b := by
  simp [readSlice, ← List.map_append]

@[simp] theorem operand_length (s : State) : (operand s).length = s.ilen := by simp [operand]

theorem operand_congr {s t : State} (h : t.ibuf = s.ibuf) (hd : t.ibufDraw = s.ibufDraw) (hl : t.ilen = s.ilen) :
    operand t = operand s := by
  rw [operand, operand, hl, readSlice_congr h hd]

/-! ### Reads of `OBUF` -/

theorem readObuf_congr {s t : State} (h : t.obuf = s.obuf) (hd : t.obufDraw = s.obufDraw) (a : Nat) :
    readObuf t a = readObuf s a := by
  simp [readObuf, h, hd]

theorem readObuf_appended_outside {bs : List Byte} {s : State} {a : Nat} (h : a < s.wp ∨ s.wp + bs.length ≤ a) :
    readObuf (appended bs s) a = readObuf s a := by
  simp [readObuf, get?_writeList_outside bs s.obuf h]

theorem readObuf_appended_inside {bs : List Byte} {s : State} {j : Nat} (h : j < bs.length) :
    readObuf (appended bs s) (s.wp + j) = bs[j] := by
  simp [readObuf, get?_writeList_inside bs s.obuf s.wp h]

/-- With every byte below `a` listed, writing from `a` on lists every byte below the new end. -/
theorem writeList_isSome {m : Memory} {a i : Nat} {bs : List Byte} (hm : ∀ j, j < a → (m.get? j).isSome = true)
    (h : i < a + bs.length) : ((m.writeList a bs).get? i).isSome = true := by
  by_cases hi : i < a
  · rw [get?_writeList_outside _ _ (.inl hi)]
    exact hm i hi
  · rw [show i = a + (i - a) by omega, get?_writeList_inside _ _ _ (by omega)]
    rfl

/-- A byte that has been written is still read after the result is delivered; the counter plays no part in it. -/
theorem readObuf_deliver {s : State} {a : Nat} (h : a < s.wp) (hl : (s.obuf.get? a).isSome = true) :
    readObuf (deliver s) a = readObuf s a := by
  obtain ⟨b, hb⟩ := Option.isSome_iff_exists.1 hl
  simp [readObuf, get?_keepBelow, h, hb]

theorem get?_deliver (s : State) (a : Nat) :
    (deliver s).obuf.get? a = if a < s.wp then s.obuf.get? a else none := by
  simp [get?_keepBelow]

theorem get?_raiseFailure (cause : Cause) (pos : Nat) (s : State) (a : Nat) :
    (raiseFailure cause pos s).obuf.get? a = none := by
  simp

end Sys2Proof.Machine
end

