-- ==== Sys2Proof/Laws/Operands.lean ====
section
/-! SUPPORT. Laws/Operands.lean: what the framer's look-ahead finds (R72), and the parts of a length byte. -/

namespace Sys2Proof.Machine

theorem zeroFrom_spec (s : State) (k i : Nat) :
    i ≤ zeroFrom s k i ∧ zeroFrom s k i ≤ i + k ∧
      (∀ j, i ≤ j → j < zeroFrom s k i → readIbuf s j ≠ 0#8) ∧
      (zeroFrom s k i < i + k → readIbuf s (zeroFrom s k i) = 0#8) := by
  induction k generalizing i with
  | zero => exact ⟨Nat.le_refl _, Nat.le_refl _, fun j h1 h2 => absurd h1 (by simp [zeroFrom] at h2; omega), by simp [zeroFrom]⟩
  | succ k ih =>
    rw [zeroFrom]
    split
    · rename_i h
      exact ⟨Nat.le_refl _, by omega, fun j h1 h2 => by omega, fun _ => h⟩
    · rename_i h
      obtain ⟨h1, h2, h3, h4⟩ := ih (i + 1)
      refine ⟨by omega, by omega, fun j hj1 hj2 => ?_, fun h5 => h4 (by omega)⟩
      rcases Nat.eq_or_lt_of_le hj1 with rfl | hlt
      · exact h
      · exact h3 j hlt hj2

theorem zeroFrom_congr {s t : State} (h : t.ibuf = s.ibuf) (hd : t.ibufDraw = s.ibufDraw) (k i : Nat) :
    zeroFrom t k i = zeroFrom s k i := by
  induction k generalizing i with
  | zero => rfl
  | succ k ih => simp only [zeroFrom, readIbuf_congr h hd, ih]

/-- `e` of R72: inside the operand, no zero before it, and a zero at it unless it is `ILEN`. -/
theorem runEnd_spec {s : State} (h : s.fp ≤ s.ilen) :
    s.fp ≤ runEnd s ∧ runEnd s ≤ s.ilen ∧
      (∀ j, s.fp ≤ j → j < runEnd s → readIbuf s j ≠ 0#8) ∧
      (runEnd s < s.ilen → readIbuf s (runEnd s) = 0#8) := by
  obtain ⟨h1, h2, h3, h4⟩ := zeroFrom_spec s (s.ilen - s.fp) s.fp
  refine ⟨h1, by unfold runEnd; omega, h3, fun hlt => h4 (by unfold runEnd at hlt; omega)⟩

theorem runEnd_congr {s t : State} (h : t.ibuf = s.ibuf) (hd : t.ibufDraw = s.ibufDraw) (hl : t.ilen = s.ilen)
    (hf : t.fp = s.fp) : runEnd t = runEnd s := by
  simp only [runEnd, hl, hf, zeroFrom_congr h hd]

@[simp] theorem blockBytes_length (s : State) (b : BlockRef) : (blockBytes s b).length = b.cnt + 1 := by
  simp [blockBytes]

@[simp] theorem unstuffBytes_length (s : State) (b : BlockRef) :
    (unstuffBytes s b).length = s.pend.toNat + b.cnt := by
  cases h : s.pend <;> simp [unstuffBytes, h, Nat.add_comm]

theorem dataCount_lengthByteOf (L : Nat) : dataCount (lengthByteOf L) = L := rfl

theorem atHeader_iff {s : State} : atHeader s = true ↔ s.status = .busy .decode ∧ s.rp < s.ilen := by
  simp [atHeader]

theorem atLastByte_iff {s : State} : atLastByte s = true ↔ s.rp + 1 = s.ilen := by
  simp [atLastByte]

end Sys2Proof.Machine
end

