-- ==== Sys2Proof/Laws/Exec.lean ====
section
/-! SUPPORT. Laws/Exec.lean: the inversion lemma of every meaning and of every step of a running operation: if it answers
a next state, this is how. Provers cite these instead of unfolding the meanings. -/

namespace Sys2Proof.Machine

/-! ### The commands -/

theorem execSize_next {s t : State} : exec .size s = .next t ↔ isBusy s = false ∧ t = startFlags .size s := by
  simp only [exec, execSize, ifReady_next, next_eq_next]

theorem execEncode_next {s t : State} :
    exec .encode s = .next t ↔ isBusy s = false ∧ s.ilen ≤ s.cfg.nmax ∧ t = startEncode s := by
  simp only [exec, execEncode, ifReady_next]
  split <;> simp_all [-Host.Outcome.next.injEq, next_eq_next]

theorem execDecode_next {s t : State} :
    exec .decode s = .next t ↔ isBusy s = false ∧ s.ilen ≤ fmax s.cfg ∧ t = startDecode s := by
  simp only [exec, execDecode, ifReady_next]
  split <;> simp_all [-Host.Outcome.next.injEq, next_eq_next]

theorem execCmdReserved_next {s t : State} : ¬ exec .cmdReserved s = .next t := by
  simp [exec, execCmdReserved]

/-! ### The items of a frame -/

theorem acceptBlock_next {b : BlockRef} {s t : State} :
    acceptBlock b s = .next t ↔
      b.start + b.cnt ≤ fmax s.cfg ∧ s.wp + (unstuffBytes s b).length ≤ fmax s.cfg ∧ t = accepted b s := by
  unfold acceptBlock
  split
  · simp only [andThen_next, appendObuf_next, accepted, true_and, *]
    constructor
    · rintro ⟨u, ⟨h1, rfl⟩, h2⟩
      exact ⟨h1, by simpa [-Host.Outcome.next.injEq, next_eq_next] using h2⟩
    · rintro ⟨h1, rfl⟩
      exact ⟨_, ⟨h1, rfl⟩, rfl⟩
  · simp [*]

theorem lengthByte_next {n : Nat} {s t : State} :
    lengthByte n s = .next t ↔
      (dataCount n > s.ilen - (s.rp + 1) ∧ t = raiseFailure .truncatedFrame s.rp s) ∨
      (dataCount n ≤ s.ilen - (s.rp + 1) ∧ s.rp + 1 + dataCount n ≤ fmax s.cfg ∧
        s.wp + (unstuffBytes s (blockAtCursor n s)).length ≤ fmax s.cfg ∧ t = accepted (blockAtCursor n s) s) := by
  unfold lengthByte
  split
  · rename_i h
    simp [-Host.Outcome.next.injEq, h, next_eq_next, Nat.not_le.2 h]
  · rename_i h
    simp [h, Nat.not_lt.1 h, acceptBlock_next, blockAtCursor]

theorem execLenTerm_next {s t : State} :
    exec .lenTerm s = .next t ↔ s.status = .busy .decode ∧ s.rp + 1 = s.ilen ∧ t = deliver s := by
  simp only [exec, execLenTerm]
  split
  · rename_i h
    simp only [Bool.and_eq_true, atHeader_iff, atLastByte_iff] at h
    simp [-Host.Outcome.next.injEq, h, next_eq_next]
  · rename_i h
    simp only [Bool.and_eq_true, atHeader_iff, atLastByte_iff] at h
    simp only [reduceCtorEq, false_iff]
    rintro ⟨h1, h2, -⟩
    exact h ⟨⟨h1, by omega⟩, h2⟩

theorem execLenZeroIllegal_next {s t : State} :
    exec .lenZeroIllegal s = .next t ↔
      s.status = .busy .decode ∧ s.rp + 1 < s.ilen ∧ t = raiseFailure .invalidLengthByte s.rp s := by
  simp only [exec, execLenZeroIllegal]
  split
  · rename_i h
    simp only [Bool.and_eq_true, atHeader_iff, Bool.not_eq_true', ← Bool.not_eq_true, atLastByte_iff] at h
    simp only [h.1.1, true_and, Host.Outcome.next.injEq]
    constructor
    · rintro rfl
      exact ⟨by omega, rfl⟩
    · rintro ⟨-, rfl⟩
      rfl
  · rename_i h
    simp only [Bool.and_eq_true, atHeader_iff, Bool.not_eq_true', ← Bool.not_eq_true, atLastByte_iff] at h
    simp only [reduceCtorEq, false_iff]
    rintro ⟨h1, h2, -⟩
    exact h ⟨⟨h1, by omega⟩, by omega⟩

theorem execLenFull_next {s t : State} :
    exec .lenFull s = .next t ↔ s.status = .busy .decode ∧ s.rp < s.ilen ∧ lengthByte 255 s = .next t := by
  simp only [exec, execLenFull]
  split
  · rename_i h
    simp [atHeader_iff.1 h]
  · rename_i h
    simp only [reduceCtorEq, false_iff]
    rintro ⟨h1, h2, -⟩
    exact h (atHeader_iff.2 ⟨h1, h2⟩)

theorem execLenBlk_next {n : Byte} {s t : State} :
    exec (.lenBlk n) s = .next t ↔ s.status = .busy .decode ∧ s.rp < s.ilen ∧ lengthByte n.toNat s = .next t := by
  simp only [exec, execLenBlk]
  split
  · rename_i h
    simp [atHeader_iff.1 h]
  · rename_i h
    simp only [reduceCtorEq, false_iff]
    rintro ⟨h1, h2, -⟩
    exact h (atHeader_iff.2 ⟨h1, h2⟩)

/-! ### The steps of a running operation -/

theorem encodeStep_next {s t : State} :
    encodeStep s = .next t ↔
      s.ilen ≤ fmax s.cfg ∧
        ((s.fdone = true ∧ s.wp + 1 ≤ fmax s.cfg ∧ t = deliver (appended [0#8] s)) ∨
         (s.fdone = false ∧
          (frameNext s).2.wp + (blockBytes (frameNext s).2 (frameNext s).1).length ≤ fmax (frameNext s).2.cfg ∧
          t = appended (blockBytes (frameNext s).2 (frameNext s).1) (frameNext s).2)) := by
  unfold encodeStep
  split
  · rename_i h
    split
    · rename_i hd
      simp only [h, hd, true_and, emitTerm, andThen_next, appendObuf_next, List.length_singleton, Bool.true_eq_false,
        false_and, or_false]
      constructor
      · rintro ⟨u, ⟨h1, rfl⟩, h2⟩
        exact ⟨h1, by simpa [-Host.Outcome.next.injEq, next_eq_next] using h2⟩
      · rintro ⟨h1, rfl⟩
        exact ⟨_, ⟨h1, rfl⟩, rfl⟩
    · rename_i hd
      simp only [Bool.not_eq_true] at hd
      simp [h, hd, writeBlock, appendObuf_next]
  · simp [*]

/-- The framer's step in its two cases, EMIT_FULL (R73) and EMIT_FINAL (R74, R75). -/
theorem frameNext_cases (s : State) :
    (runEnd s - s.fp > 254 ∧ frameNext s = (⟨255, s.fp, 254⟩, { s with fp := s.fp + 254 })) ∨
    (runEnd s - s.fp ≤ 254 ∧ runEnd s = s.ilen ∧
      frameNext s = (⟨runEnd s - s.fp + 1, s.fp, runEnd s - s.fp⟩, { s with fdone := true })) ∨
    (runEnd s - s.fp ≤ 254 ∧ runEnd s ≠ s.ilen ∧
      frameNext s = (⟨runEnd s - s.fp + 1, s.fp, runEnd s - s.fp⟩, { s with fp := runEnd s + 1 })) := by
  unfold frameNext lengthByteOf
  by_cases h : runEnd s - s.fp > 254
  · exact .inl ⟨h, by rw [if_pos h]⟩
  · by_cases he : runEnd s = s.ilen
    · refine .inr (.inl ⟨by omega, he, ?_⟩)
      rw [if_neg h, if_pos he]
    · refine .inr (.inr ⟨by omega, he, ?_⟩)
      rw [if_neg h, if_neg he]

theorem parseNext_next {s t : State} :
    parseNext s = .next t ↔
      (s.rp = s.ilen ∧ t = deliver s) ∨ (s.rp ≠ s.ilen ∧ s.rp < fmax s.cfg ∧ exec (fetchItem s) s = .next t) := by
  unfold parseNext
  split
  · simp [-Host.Outcome.next.injEq, *, next_eq_next]
  · split <;> simp [*]

theorem coreStep_next {s t : State} :
    coreStep s = .next t ↔
      (isBusy s = false ∧ t = s) ∨ (s.status = .busy .size ∧ t = completeSize s) ∨
      (s.status = .busy .encode ∧ encodeStep s = .next t) ∨ (s.status = .busy .decode ∧ parseNext s = .next t) := by
  unfold coreStep isBusy
  rcases hs : s.status with _ | op | _ | _
  · simp [-Host.Outcome.next.injEq, next_eq_next]
  · cases op <;> simp [-Host.Outcome.next.injEq, next_eq_next]
  · simp [-Host.Outcome.next.injEq, next_eq_next]
  · simp [-Host.Outcome.next.injEq, next_eq_next]

end Sys2Proof.Machine
end

