-- ==== Sys2Proof/Laws/PerInstr.lean ====
section
/-! SUPPORT. Laws/PerInstr.lean: the statement made instruction by instruction: the encoder's word matches the row of
spec/opcode_table.json that the instruction stands for, and lies in the row's format. -/

namespace Sys2Proof.Laws.MatchesTable

/-- The word of a well-formed instruction has the row's format and, under the row's mask, the row's match value. -/
def Statement (i : Instr) : Prop :=
  i.wf = true → codeBits (encode i) &&& tableMask i = tableMatch i ∧
    (isCommand i = true ↔ ∃ op, encode i = .cmd op)

theorem size : Statement .size := fun _ => ⟨rfl, by simp [isCommand, encode]⟩
theorem encode : Statement .encode := fun _ => ⟨rfl, by simp [isCommand, Sys2Proof.encode]⟩
theorem decode : Statement .decode := fun _ => ⟨rfl, by simp [isCommand, Sys2Proof.encode]⟩
theorem cmdReserved : Statement .cmdReserved := fun _ => ⟨rfl, by simp [isCommand, Sys2Proof.encode]⟩
theorem lenTerm : Statement .lenTerm := fun _ => ⟨rfl, by simp [isCommand, Sys2Proof.encode]⟩
theorem lenZeroIllegal : Statement .lenZeroIllegal := fun _ => ⟨rfl, by simp [isCommand, Sys2Proof.encode]⟩
theorem lenFull : Statement .lenFull := fun _ => ⟨rfl, by simp [isCommand, Sys2Proof.encode]⟩
theorem lenBlk (n : Byte) : Statement (.lenBlk n) :=
  fun _ => ⟨Nat.and_zero _, by simp [isCommand, Sys2Proof.encode]⟩

end Sys2Proof.Laws.MatchesTable
end

