-- ==== Sys2Proof/Laws/Step.lean ====
section
/-! SUPPORT. Laws/Step.lean: everything a step can do, said once. -/

namespace Sys2Proof.Machine

theorem step_noMove {s : State} (h : s.host = []) : step s = coreStep s := by
  simp [step, h]

theorem step_move {s : State} {m : HostMove} {rest : List HostMove} (h : s.host = m :: rest) :
    step s = hostTurn m rest s := by
  simp [step, h]

/-- `steps` is the run of the machine as the host takes it. -/
theorem core_run_eq_steps (k : Nat) (s : State) : Host.Core.run Sys2Proof.core k s = steps k s := by
  induction k generalizing s with
  | zero => rfl
  | succ k ih =>
    refine (Host.Core.run.eq_2 Sys2Proof.core s k).trans ?_
    have hstep : Sys2Proof.core.step s = step s := rfl
    rw [hstep, steps]
    cases step s with
    | next u => exact ih u
    | fault r => rfl
    | refused r => rfl

theorem steps_succ_next {k : Nat} {s t : State} :
    steps (k + 1) s = .next t ↔ ∃ u, step s = .next u ∧ steps k u = .next t := by
  simp [steps, andThen_next]

theorem steps_add {k j : Nat} {s t : State} (h : steps k s = .next t) : steps (k + j) s = steps j t := by
  induction k generalizing s with
  | zero =>
    simp only [steps, next_eq_next] at h
    rw [Nat.zero_add, h]
  | succ k ih =>
    obtain ⟨u, hu, hk⟩ := steps_succ_next.1 h
    rw [Nat.add_right_comm, steps, hu]
    exact ih hk

theorem hostRead_next {r : ReadReg} {s t : State} :
    hostRead r s = .next t ↔ (r = .status ∨ isBusy s = false) ∧ t = receive (.reg r (regValue s r)) s := by
  cases r <;> simp [-Host.Outcome.next.injEq, hostRead, unlessBusy_next, next_eq_next]

/-- A WAIT while BUSY is the core's turn, and the host stays waiting (R62). -/
theorem step_wait_busy {s : State} {rest : List HostMove} (h : s.host = .wait :: rest) (hb : isBusy s = true) :
    step s = coreStep s := by
  simp [step, h, hostTurn, hb]

/-- A WAIT outside BUSY is one read of `STATUS` (R62). -/
theorem step_wait_ready {s : State} {rest : List HostMove} (h : s.host = .wait :: rest) (hb : isBusy s = false) :
    step s = step { s with host := .rd .status :: rest } := by
  simp [step, h, hostTurn, hb]

/-- What a step can do when the host makes the move `m`; the core's own turns are left as `coreStep`, a start as
`exec`. -/
theorem hostTurn_next {m : HostMove} {rest : List HostMove} {s t : State} (h : hostTurn m rest s = .next t) :
    (∃ i b, m = .wrIbuf i b ∧ isBusy s = false ∧ i < fmax s.cfg ∧ t = { s with host := rest, ibuf := s.ibuf.write i b }) ∨
    (∃ v, m = .wrIlen v ∧ isBusy s = false ∧ v < 2 ^ lw s.cfg ∧ t = { s with host := rest, ilen := v }) ∨
    (∃ v, m = .wrSarg v ∧ isBusy s = false ∧ v < 2 ^ lw s.cfg ∧ t = { s with host := rest, sarg := v }) ∨
    (∃ op, m = .cmd op ∧ exec (decodeCmd op) { s with host := rest } = .next t) ∨
    (∃ g, (isBusy s = false ∨ m = .rd .status) ∧ (m = .wait ∨ (∃ r, m = .rd r) ∨ (∃ i, m = .rdObuf i) ∨ ∃ i, m = .rdIbuf i) ∧
      t = receive g { s with host := rest }) ∨
    (m = .wait ∧ isBusy s = true ∧ coreStep s = .next t) ∨
    (m = .pass ∧ coreStep { s with host := rest } = .next t) ∨
    (m = .rst ∧ t = resetEvent { s with host := rest }) := by
  cases m with
  | wrIbuf i b =>
    simp only [hostTurn, unlessBusy_next, hostWriteIbuf] at h
    obtain ⟨hb, h⟩ := h
    split at h
    · rename_i hi
      exact .inl ⟨i, b, rfl, hb, hi, by simpa [-Host.Outcome.next.injEq, next_eq_next] using h⟩
    · simp at h
  | wrIlen v =>
    simp only [hostTurn, unlessBusy_next, hostWriteIlen] at h
    obtain ⟨hb, h⟩ := h
    split at h
    · rename_i hi
      exact .inr (.inl ⟨v, rfl, hb, hi, by simpa [-Host.Outcome.next.injEq, next_eq_next] using h⟩)
    · simp at h
  | wrSarg v =>
    simp only [hostTurn, unlessBusy_next, hostWriteSarg] at h
    obtain ⟨hb, h⟩ := h
    split at h
    · rename_i hi
      exact .inr (.inr (.inl ⟨v, rfl, hb, hi, by simpa [-Host.Outcome.next.injEq, next_eq_next] using h⟩))
    · simp at h
  | cmd op => exact .inr (.inr (.inr (.inl ⟨op, rfl, h⟩)))
  | rd r =>
    simp only [hostTurn, hostRead_next] at h
    refine .inr (.inr (.inr (.inr (.inl ⟨_, ?_, .inr (.inl ⟨r, rfl⟩), h.2⟩))))
    rcases h.1 with rfl | hb
    · exact .inr rfl
    · exact .inl hb
  | rdObuf i =>
    simp only [hostTurn, unlessBusy_next, hostReadObuf] at h
    obtain ⟨hb, h⟩ := h
    split at h
    · exact .inr (.inr (.inr (.inr (.inl ⟨_, .inl hb, .inr (.inr (.inl ⟨i, rfl⟩)), by simpa [-Host.Outcome.next.injEq, next_eq_next] using h⟩))))
    · simp at h
  | rdIbuf i =>
    simp only [hostTurn, unlessBusy_next, hostReadIbuf] at h
    obtain ⟨hb, h⟩ := h
    split at h
    · split at h
      · exact .inr (.inr (.inr (.inr (.inl ⟨_, .inl hb, .inr (.inr (.inr ⟨i, rfl⟩)), by simpa [-Host.Outcome.next.injEq, next_eq_next] using h⟩))))
      · simp at h
    · simp at h
  | wait =>
    simp only [hostTurn] at h
    split at h
    · rename_i hb
      exact .inr (.inr (.inr (.inr (.inr (.inl ⟨rfl, hb, h⟩)))))
    · rename_i hb
      simp only [hostRead_next] at h
      exact .inr (.inr (.inr (.inr (.inl ⟨_, .inl (by simpa using hb), .inl rfl, h.2⟩))))
  | pass => exact .inr (.inr (.inr (.inr (.inr (.inr (.inl ⟨rfl, h⟩))))))
  | rst =>
    simp only [hostTurn, Host.Outcome.next.injEq] at h
    exact .inr (.inr (.inr (.inr (.inr (.inr (.inr ⟨rfl, h.symm⟩))))))

end Sys2Proof.Machine
end

