-- ==== Sys2Proof/Laws/Sound.lean ====
section
/-! SUPPORT. Laws/Sound.lean: the small facts about the invariant's parts: the room a running ENCODE needs, and the fields
on which the invariant does not depend. -/

namespace Sys2Proof.Machine

/-- EMIT_FULL uses 255 of the room. -/
theorem encodeRoom_full {x : Nat} (h : 254 < x) : encodeRoom (x - 254) + 255 ≤ encodeRoom x := by
  unfold encodeRoom esize
  split_ifs <;> omega

/-- EMIT_FINAL before a separator uses `L + 1` of the room. -/
theorem encodeRoom_separator {x L : Nat} (h : L < x) : encodeRoom (x - L - 1) + (L + 1) ≤ encodeRoom x := by
  unfold encodeRoom esize
  split_ifs <;> omega

/-- The last block and the terminator always have room. -/
theorem encodeRoom_last (x : Nat) : x + 2 ≤ encodeRoom x := by
  unfold encodeRoom esize
  split_ifs <;> omega

/-- The invariant says nothing about the host's pending moves or what it has read. -/
theorem Sound.of_host {s : State} (h : Sound s) (rest : List HostMove) (got : List HostGot) :
    Sound { s with host := rest, got := got } where
  nmax_pos := h.nmax_pos
  ilen_fits := h.ilen_fits
  sarg_fits := h.sarg_fits
  sres_fits := h.sres_fits
  olen_le := h.olen_le
  epos_le := h.epos_le
  fp_le := h.fp_le
  rp_le := h.rp_le
  wp_le := h.wp_le
  ibuf_wf := h.ibuf_wf
  obuf_wf := h.obuf_wf
  ibuf_inside := h.ibuf_inside
  obuf_inside := h.obuf_inside
  err_iff_fail := h.err_iff_fail
  epos_of_fail := h.epos_of_fail
  fail_olen := h.fail_olen
  result_extent := h.result_extent
  running_encode := fun e =>
    ⟨⟨(h.running_encode e).1.ilen_le, (h.running_encode e).1.fp_le, (h.running_encode e).1.room⟩,
      ⟨(h.running_encode e).2.olen_zero, (h.running_encode e).2.written⟩⟩
  running_decode := fun e =>
    ⟨⟨(h.running_decode e).1.ilen_le, (h.running_decode e).1.rp_le, (h.running_decode e).1.wp_le⟩,
      ⟨(h.running_decode e).2.olen_zero, (h.running_decode e).2.written⟩⟩

end Sys2Proof.Machine
end

