-- ==== Sys2Proof/Tests/Slice0.lean ====
section
/-! SUPPORT. Tests/Slice0.lean: the model's own tests, each expected result taken from the spec (its vector or rule is
named), and one witness for the hypotheses of every statement that has some. -/

namespace Sys2Proof.Tests

open Sys2Proof.Machine

-- One proof at a time: the kernel evaluations of this file would otherwise each hold a thread.
set_option Elab.async false

/-! ## Helpers -/

/-- A core with `NMAX = nmax` that holds the operand `p` and has the given status. -/
def coreWith (nmax : Nat) (p : List Byte) (st : Status) : State :=
  { State.resetWith ⟨nmax, false⟩ with ibuf := Memory.writeList [] 0 p, ilen := p.length, status := st }

/-- The next state, if there is one. -/
def nextOf : Out → Option State
  | .next s => some s
  | .fault _ => none
  | .refused _ => none

/-- The refusal, if there is one. -/
def refusalOf : Out → Option Refusal
  | .next _ => none
  | .fault _ => none
  | .refused r => some r

/-- A next state with a property, from a computation. -/
theorem exists_next {o : Out} (P : State → Bool) (h : (nextOf o).any P = true) : ∃ t, o = .next t ∧ P t = true := by
  cases o with
  | next s => exact ⟨s, rfl, by simpa [nextOf] using h⟩
  | fault r => simp [nextOf] at h
  | refused r => simp [nextOf] at h

/-- `k` bytes `b`. -/
def rep (k : Nat) (b : Byte) : List Byte := List.replicate k b

theorem rep_length (k : Nat) (b : Byte) : (rep k b).length = k := List.length_replicate

theorem rep_mem {k : Nat} {b : Byte} {P : Byte → Prop} (h : P b) : ∀ x ∈ rep k b, P x := fun x hx => by
  rw [List.eq_of_mem_replicate hx]
  exact h

/-! ## The syntax check refuses each ill-formed term -/

theorem test_wf_refuses_lenBlk_zero : (Instr.lenBlk 0#8).wf = false := by decide
theorem test_wf_refuses_lenBlk_255 : (Instr.lenBlk 255#8).wf = false := by decide
theorem test_wf_accepts_lenBlk_bounds : (Instr.lenBlk 1#8).wf = true ∧ (Instr.lenBlk 254#8).wf = true := by decide
theorem test_block_wf_refuses_length_zero : (Block.mk 0 []).wf = false := by decide
theorem test_block_wf_refuses_length_256 : (Block.mk 256 (rep 255 1#8)).wf = false := by decide +kernel
theorem test_block_wf_refuses_wrong_count : (Block.mk 3 [1#8]).wf = false := by decide
theorem test_block_wf_refuses_zero_datum : (Block.mk 2 [0#8]).wf = false := by decide

/-! ## Decoding: words written out from the encodings (R45, R50, R56) -/

theorem test_decode_size : decodeCmd 0b00#2 = .size := by decide
theorem test_decode_encode : decodeCmd 0b01#2 = .encode := by decide
theorem test_decode_decode : decodeCmd 0b10#2 = .decode := by decide
theorem test_decode_reserved : decodeCmd 0b11#2 = .cmdReserved := by decide
theorem test_decode_lenTerm : decodeHeader [0b00000000#8] = .ok .lenTerm := rfl
theorem test_decode_lenZeroIllegal : decodeHeader [0b00000000#8, 0x02#8] = .ok .lenZeroIllegal := rfl
theorem test_decode_lenFull : decodeHeader [0b11111111#8] = .ok .lenFull := rfl
theorem test_decode_lenBlk : decodeHeader [0b00000101#8, 0x01#8] = .ok (.lenBlk 0x05#8) := rfl
theorem test_decode_rejects_nothing_left : decodeHeader [] = .error .exhausted := rfl
theorem test_decodeTableWord_commands :
    decodeTableWord 8 0 = some .size ∧ decodeTableWord 8 1 = some .encode ∧ decodeTableWord 8 2 = some .decode ∧
      decodeTableWord 8 3 = some .cmdReserved := by decide +kernel
theorem test_decodeTableWord_items :
    decodeTableWord 8 0xFF = some .lenFull ∧ decodeTableWord 8 0x04 = some (.lenBlk 4#8) ∧
      decodeTableWord 16 0x0200 = some .lenZeroIllegal ∧ decodeTableWord 8 256 = none := by decide +kernel

/-! ## A placed word is what the next step runs -/

theorem test_fetch_size :
    (nextOf (step (State.reset.withFetchWord 8 0))).map (·.status) = some (.busy .size) := by decide +kernel
theorem test_fetch_reserved : refusalOf (step (State.reset.withFetchWord 8 3)) = some .reservedCommand := by decide +kernel
theorem test_fetch_lenFull :
    (nextOf (step (State.reset.withFetchWord 8 0xFF))).map (fun t => (t.rp, t.wp, t.pend)) = some (255, 254, false) := by
  decide +kernel
theorem test_fetch_lenBlk :
    (nextOf (step (State.reset.withFetchWord 8 5))).map (fun t => (t.rp, t.wp, t.pend)) = some (5, 4, true) := by
  decide +kernel
theorem test_fetch_zero_mid_frame :
    (nextOf (step (State.reset.withFetchWord 16 0x0200))).map (fun t => (t.status, t.err, t.epos)) =
      some (.doneFail, .invalidLen, 0) := by decide +kernel

/-! ## Parameters and SIZE (V12 to V16, V20 to V29, V91, V100) -/

theorem test_parameters : [1, 253, 254, 510, 65535].map (fun n => (fmax ⟨n, false⟩, lw ⟨n, false⟩)) =
    [(3, 2), (255, 8), (256, 9), (514, 10), (65795, 17)] := by decide +kernel
theorem test_esize : [0, 1, 3, 253, 254, 255, 508, 509, 510, 65535].map esize =
    [1, 3, 5, 255, 256, 258, 511, 513, 514, 65795] := by decide +kernel
/-- V91: the start of SIZE. -/
theorem test_execSize_starts :
    (nextOf (exec .size { State.reset with sarg := 255, err := .truncated, epos := 7 })).map
      (fun t => ((statusCode t.status).toNat, t.err, t.epos, t.sres)) = some (1, .none, 0, 0) := by decide +kernel
/-- V100: the completion of SIZE with the largest operand of 10 bits. -/
theorem test_completeSize :
    (nextOf (coreStep { State.reset with sarg := 1023, status := .busy .size })).map
      (fun t => ((statusCode t.status).toNat, t.sres)) = some (2, 1029) := by decide +kernel

/-! ## ENCODE (V2, V3, V33, V42, the traces of 2.5) -/

theorem test_enc_vectors :
    enc [] = [0x00#8] ∧ enc [1#8, 2#8, 3#8] = [4#8, 1#8, 2#8, 3#8, 0#8] ∧ enc [0#8] = [1#8, 1#8, 0#8] ∧
      enc [0x11#8, 0x22#8, 0#8, 0x33#8] = [3#8, 0x11#8, 0x22#8, 2#8, 0x33#8, 0#8] ∧
      encSerial [0#8, 1#8] = [1#8, 2#8, 1#8, 0#8] := by decide +kernel
/-- V42: a full run before a separator loses it. -/
theorem test_enc_V42 : enc (rep 254 0xAA#8 ++ [0#8, 5#8]) = 0xFF#8 :: (rep 254 0xAA#8 ++ [2#8, 5#8, 0#8]) := by
  decide +kernel
/-- V92: an empty payload makes the framer done at once. -/
theorem test_execEncode_starts :
    (nextOf (exec .encode { State.reset with olen := 9, fp := 3, wp := 4 })).map
      (fun t => (t.olen, t.fp, t.fdone, t.wp)) = some (0, 0, true, 0) := by decide +kernel
/-- V33 (`01 00`), first framer step: the block `(2, 0, 1)`, `fp = 2`. -/
theorem test_encodeStep_V33 :
    (nextOf (coreStep (coreWith 510 [1#8, 0#8] (.busy .encode)))).map (fun t => (t.fp, t.fdone, t.wp, t.obuf)) =
      some (2, false, 2, [(0, 2#8), (1, 1#8)]) := by decide +kernel

/-! ## DECODE (V8, V58, V62, V66, V74, program P5) -/

theorem test_dec_vectors :
    dec [3#8, 0x11#8, 0x22#8, 2#8, 0x33#8, 0#8] = .ok [0x11#8, 0x22#8, 0#8, 0x33#8] ∧
      dec [5#8, 1#8, 2#8] = .fail .truncatedFrame 0 ∧
      dec [2#8, 5#8, 0#8, 2#8, 6#8, 0#8] = .fail .invalidLengthByte 2 ∧
      dec [3#8, 0#8, 1#8, 0#8] = .ok [0#8, 1#8] ∧ dec [1#8] = .ok [] := by decide +kernel
theorem test_dec_V59 : dec (0xFF#8 :: (rep 254 0xAA#8 ++ [1#8, 0#8])) = .ok (rep 254 0xAA#8) := by decide +kernel
theorem test_execDecode_starts :
    (nextOf (exec .decode { coreWith 510 [1#8] .doneFail with rp := 8, wp := 8, pend := true, epos := 2 })).map
      (fun t => (t.rp, t.wp, t.pend, t.epos)) = some (0, 0, false, 0) := by decide +kernel

/-- The frame of V58 after its first block, as 2.9 traces it. -/
def v58 : State :=
  { coreWith 510 [3#8, 0x11#8, 0x22#8, 2#8, 0x33#8, 0#8] (.busy .decode) with
    rp := 3, wp := 2, pend := true, obuf := [(0, 0x11#8), (1, 0x22#8)] }
/-- V58, step 2: the owed zero, then the datum; `rp = 5`, `wp = 4`, `pend = 1`. -/
theorem test_lenBlk_V58 :
    (nextOf (step v58)).map (fun t => (t.rp, t.wp, t.pend, t.obuf)) =
      some (5, 4, true, [(0, 0x11#8), (1, 0x22#8), (2, 0#8), (3, 0x33#8)]) := by decide +kernel
/-- V66, step 2: TruncatedFrame at 2. -/
theorem test_lenBlk_V66 :
    (nextOf (step { coreWith 510 [2#8, 7#8, 5#8, 1#8] (.busy .decode) with rp := 2, wp := 1, pend := true })).map
      (fun t => (t.status, (errCode t.err).toNat, t.epos, t.olen)) = some (.doneFail, 1, 2, 0) := by decide +kernel
/-- V58, step 3: the terminator; the owed separator is dropped. -/
theorem test_lenTerm_V58 :
    (nextOf (step { v58 with rp := 5, wp := 4 })).map (fun t => ((statusCode t.status).toNat, t.olen)) = some (2, 4) := by
  decide +kernel
/-- V62, step 2: InvalidLengthByte at 2. -/
theorem test_lenZeroIllegal_V62 :
    (nextOf (step { coreWith 510 [2#8, 5#8, 0#8, 2#8, 6#8, 0#8] (.busy .decode) with rp := 2, wp := 1 })).map
      (fun t => ((statusCode t.status).toNat, (errCode t.err).toNat, t.epos, t.olen)) = some (3, 2, 2, 0) := by
  decide +kernel
/-- P5, step 3: a full block after a short one: `rp` 4 to 259, `wp` 3 to 258, nothing owed after it. -/
theorem test_lenFull_P5 :
    (nextOf (step
      { coreWith 510 ([1#8, 3#8, 0x11#8, 0x22#8, 0xFF#8] ++ rep 254 0xDD#8 ++ [2#8, 0x33#8, 0#8]) (.busy .decode) with
        rp := 4, wp := 3, pend := true, obuf := [(0, 0#8), (1, 0x11#8), (2, 0x22#8)] })).map
      (fun t => (t.rp, t.wp, t.pend, [3, 4, 257, 258].map t.obuf.get?)) =
      some (259, 258, false, [some 0#8, some 0xDD#8, some 0xDD#8, none]) := by decide +kernel
/-- V67: one byte short. -/
theorem test_lenFull_V67 :
    (nextOf (step (coreWith 510 (0xFF#8 :: rep 253 0xAA#8) (.busy .decode)))).map (fun t => (t.err, t.epos)) =
      some (.truncated, 0) := by decide +kernel
/-- V70, V93: exhausted at once. -/
theorem test_exhausted : (nextOf (step (coreWith 510 [] (.busy .decode)))).map (fun t => (t.status, t.olen)) =
    some (.doneOk, 0) := by decide +kernel

/-! ## The host's moves (R143, R144, R151) -/

theorem test_reset_while_busy :
    (nextOf (step { v58 with host := [.rst] })).map (fun t => (t.status, t.ilen, t.obuf, t.cfg.nmax)) =
      some (.idle, 0, [], 510) := by decide +kernel
theorem test_encode_refused_V99 :
    refusalOf (exec .encode { State.reset with ilen := 511 }) = some .payloadTooLong ∧
      refusalOf (exec .decode { State.reset with ilen := 515 }) = some .frameTooLong := by decide +kernel
theorem test_busy_refuses_write : refusalOf (step { v58 with host := [.wrSarg 1] }) = some .hostMoveWhileBusy := by
  decide +kernel
theorem test_status_read_while_busy :
    (nextOf (step { v58 with host := [.rd .status] })).map (·.got) = some [.reg .status 1] := by decide +kernel

/-- R15: bit 1 of `STATUS` is the done flag, bit 0 with it the failure flag; the codes 0 to 3. -/
theorem test_status_flags :
    [Status.idle, .busy .decode, .doneOk, .doneFail].map (fun st => ((statusCode st).toNat, doneFlag st, failFlag st)) =
      [(0, false, false), (1, false, false), (2, true, false), (3, true, true)] := by decide

/-! ## Sound states for the witnesses -/

theorem sound_running_decode : Sound (coreWith 1 [2#8, 5#8] (.busy .decode)) where
  nmax_pos := by decide
  ilen_fits := by decide +kernel
  sarg_fits := by decide +kernel
  sres_fits := by decide +kernel
  olen_le := by decide +kernel
  epos_le := by decide +kernel
  fp_le := by decide +kernel
  rp_le := by decide +kernel
  wp_le := by decide +kernel
  ibuf_wf := by decide +kernel
  obuf_wf := by decide +kernel
  ibuf_inside := by decide +kernel
  obuf_inside := by decide +kernel
  err_iff_fail := by decide +kernel
  epos_of_fail := by decide +kernel
  fail_olen := by decide +kernel
  result_extent := fun _ h => absurd rfl h
  running_encode := fun h => by simp [coreWith] at h
  running_decode := fun _ =>
    ⟨⟨by decide +kernel, by decide +kernel, by decide +kernel⟩, ⟨rfl, fun i hi => absurd hi (Nat.not_lt_zero i)⟩⟩

theorem sound_running_encode : Sound (coreWith 1 [5#8] (.busy .encode)) where
  nmax_pos := by decide
  ilen_fits := by decide +kernel
  sarg_fits := by decide +kernel
  sres_fits := by decide +kernel
  olen_le := by decide +kernel
  epos_le := by decide +kernel
  fp_le := by decide +kernel
  rp_le := by decide +kernel
  wp_le := by decide +kernel
  ibuf_wf := by decide +kernel
  obuf_wf := by decide +kernel
  ibuf_inside := by decide +kernel
  obuf_inside := by decide +kernel
  err_iff_fail := by decide +kernel
  epos_of_fail := by decide +kernel
  fail_olen := by decide +kernel
  result_extent := fun h _ => absurd rfl h
  running_encode := fun _ =>
    ⟨⟨by decide +kernel, by decide +kernel, by decide +kernel⟩, ⟨rfl, fun i hi => absurd hi (Nat.not_lt_zero i)⟩⟩
  running_decode := fun h => by simp [coreWith] at h

/-! ## Witnesses: states and operands that meet the hypotheses of the statements -/

theorem witness_ResetEventAbandonsOperation : ∃ s : State, ∃ rest, s.host = .rst :: rest ∧ isBusy s = true :=
  ⟨{ v58 with host := [.rst, .wait] }, [.wait], rfl, rfl⟩

theorem witness_EncodingRoundTrips :
    (Instr.lenBlk 1#8).wf = true ∧ (Instr.lenBlk 254#8).wf = true ∧
      ∃ w : Code, ∀ b last, w = .len b last → b = 0#8 :=
  ⟨by decide, by decide, .len 0#8 true, fun b _ h => by simp_all⟩

theorem witness_StepRunsDecodedCommand : ∃ s : State, ∃ rest, s.host = .cmd 2#2 :: rest :=
  ⟨{ State.reset with host := [.cmd 2#2] }, [], rfl⟩

theorem witness_StepRunsDecodedItem :
    v58.status = .busy .decode ∧ v58.rp < v58.ilen ∧ v58.rp < fmax v58.cfg ∧ v58.host = [] ∧
      ({ v58 with host := [.wait] } : State).host = [.wait] ∧ ({ v58 with host := [.pass] } : State).host = [.pass] ∧
      decodeLen (readIbuf v58 v58.rp) (decide (v58.rp + 1 = v58.ilen)) = .lenBlk 2#8 := by decide +kernel

/-- No move, a pass and a wait between operations, and while SIZE, ENCODE and an exhausted DECODE run. -/
theorem witness_CoreHoldsBetweenOperations :
    (isBusy State.reset = false ∧ State.reset.host = [] ∧
      isBusy { State.reset with status := .doneFail, host := [.pass] } = false ∧
      isBusy { State.reset with status := .doneOk, host := [.wait] } = false) ∧
    isBusy (coreWith 1 [] (.busy .size)) = true ∧ (coreWith 1 [] (.busy .size)).host = [] ∧
      isBusy { coreWith 1 [5#8] (.busy .encode) with host := [.wait] } = true ∧
      isBusy { coreWith 1 [] (.busy .decode) with host := [.pass] } = true := by decide +kernel

/-- Each clause at a boundary: the last index of `IBUF`, the largest number of `LW` bits. -/
theorem witness_HostWritesStore :
    isBusy State.reset = false ∧ 513 < fmax State.reset.cfg ∧ 1023 < 2 ^ lw State.reset.cfg ∧
      ({ State.reset with host := [.wrIbuf 513 7#8] } : State).host = .wrIbuf 513 7#8 :: [] ∧
      ({ State.reset with host := [.wrIlen 1023] } : State).host = .wrIlen 1023 :: [] ∧
      ({ State.reset with host := [.wrSarg 1023] } : State).host = .wrSarg 1023 :: [] := by decide +kernel

/-- Every status and every cause with its code, every register, the last index of each buffer, both platforms. -/
theorem witness_HostReadsGiveValues :
    (({ State.reset with host := [.rd .status] } : State).status = .idle ∧
      ({ v58 with host := [.rd .status] } : State).status = .busy .decode ∧
      ({ State.reset with status := .doneOk, host := [.rd .status] } : State).host = [.rd .status]) ∧
    (isBusy { State.reset with status := .doneFail, err := .truncated } = false ∧
      isBusy { State.reset with status := .doneFail, err := .invalidLen } = false ∧ State.reset.err = .none ∧
      ∀ r ∈ [ReadReg.olen, .sres, .epos, .ilen, .sarg, .err],
        isBusy { State.reset with host := [.rd r] } = false ∧
          ({ State.reset with host := [.rd r] } : State).host = .rd r :: []) ∧
    (({ State.reset with host := [.rdObuf 513] } : State).host = .rdObuf 513 :: [] ∧ 513 < fmax State.reset.cfg ∧
      ({ State.reset with olen := 514 } : State).olen = 513 + 1) ∧
    (State.reset.cfg.ibufReadable = false ∧ isBusy (State.resetWith ⟨1, true⟩) = false ∧
      (State.resetWith ⟨1, true⟩).cfg.ibufReadable = true ∧ 2 < fmax (State.resetWith ⟨1, true⟩).cfg) := by decide +kernel

theorem witness_BusyAllowsOnlyStatusReads :
    isBusy v58 = true ∧ ({ v58 with host := [.rd .olen] } : State).host = .rd .olen :: [] ∧
      HostMove.rd .olen ≠ .rd .status ∧ HostMove.rd .olen ≠ .wait ∧ HostMove.rd .olen ≠ .pass ∧
      HostMove.rd .olen ≠ .rst ∧ ({ v58 with host := [.rd .status] } : State).host = .rd .status :: [] := by decide +kernel

theorem witness_HostIndexOutsideRefused :
    isBusy State.reset = false ∧ fmax State.reset.cfg ≤ 514 ∧
      ({ State.reset with host := [.wrIbuf 514 0#8] } : State).host = .wrIbuf 514 0#8 :: [] ∧
      ({ State.reset with host := [.rdObuf 514] } : State).host = .rdObuf 514 :: [] := by decide +kernel

theorem witness_ReservedCommandRefused : ∃ s : State, ∃ rest, s.host = .cmd 3#2 :: rest :=
  ⟨{ State.reset with host := [.cmd 3#2] }, [], rfl⟩

theorem witness_StartsStoreNothing :
    (∃ t, exec .size State.reset = .next t ∧ isBusy t = true) ∧ (∃ t, exec .encode State.reset = .next t ∧ isBusy t = true) ∧
      ∃ t, exec .decode State.reset = .next t ∧ isBusy t = true :=
  ⟨exists_next _ (by decide +kernel), exists_next _ (by decide +kernel), exists_next _ (by decide +kernel)⟩

theorem witness_SizeCompletes : isBusy { State.reset with sarg := 1023, status := .doneFail } = false ∧
    State.reset.host = [] ∧ 254 ∣ 508 ∧ 1023 < 2 ^ lw State.reset.cfg := by decide +kernel

theorem witness_EstimatorIsCeilingForm : ¬ 254 ∣ 255 ∧ 254 ∣ 254 := by decide

theorem witness_EstimatorArithmetic : 1 ≤ 253 ∧ 253 ≤ 253 ∧ 1023 < 2 ^ 10 := by decide

theorem witness_FrameLengthBound : ∀ b ∈ rep 255 1#8, b ≠ 0#8 := rep_mem (by decide)

/-- `ILEN = NMAX`. -/
theorem witness_EncodeStarts : isBusy (coreWith 2 [0#8, 1#8] .doneOk) = false ∧
    (coreWith 2 [0#8, 1#8] .doneOk).ilen ≤ (coreWith 2 [0#8, 1#8] .doneOk).cfg.nmax := by decide +kernel

/-- V48: 255 bytes left, one more than a block holds. -/
theorem witness_EmitFullBlock : ∃ s : State, s.status = .busy .encode ∧ s.fdone = false ∧ s.ilen ≤ fmax s.cfg ∧
    s.fp ≤ s.ilen ∧ 254 < runEnd s - s.fp ∧ s.wp + 255 ≤ fmax s.cfg :=
  ⟨coreWith 510 (rep 255 0xAA#8) (.busy .encode), by decide +kernel⟩

/-- V40, the last run with `L = 254`; V41's second step, `L = 0` at the end; V3, a separator at once. -/
theorem witness_EmitFinalBlock :
    (∃ s : State, s.status = .busy .encode ∧ s.fdone = false ∧ s.ilen ≤ fmax s.cfg ∧ s.fp ≤ s.ilen ∧
      runEnd s - s.fp = 254 ∧ s.wp + (254 + 1) ≤ fmax s.cfg ∧ runEnd s = s.ilen) ∧
    (∃ s : State, s.status = .busy .encode ∧ s.fdone = false ∧ s.ilen ≤ fmax s.cfg ∧ s.fp ≤ s.ilen ∧
      runEnd s - s.fp = 0 ∧ s.wp + (0 + 1) ≤ fmax s.cfg ∧ runEnd s ≠ s.ilen) :=
  ⟨⟨coreWith 510 (rep 254 0xAA#8) (.busy .encode), by decide +kernel⟩,
    ⟨coreWith 510 [0#8] (.busy .encode), by decide +kernel⟩⟩

theorem witness_EmitTerminator : ∃ s : State, s.status = .busy .encode ∧ s.fdone = true ∧ s.ilen ≤ fmax s.cfg ∧
    s.wp + 1 ≤ fmax s.cfg ∧ ∀ i, i < s.wp → (s.obuf.get? i).isSome = true :=
  ⟨{ coreWith 1 [5#8] (.busy .encode) with fdone := true, wp := 2, obuf := [(0, 2#8), (1, 5#8)] }, by decide +kernel⟩

theorem witness_FramerEmitsBlocks : ∃ s : State, s.fp = 0 ∧ s.fdone = decide (s.ilen = 0) ∧ s.ilen + 1 ≤ 3 :=
  ⟨coreWith 510 [0#8, 1#8] (.busy .encode), by decide +kernel⟩

theorem witness_EncodeDeliversFrame : ∃ s : State, isBusy s = false ∧ s.host = [] ∧ s.ilen ≤ s.cfg.nmax ∧ 0 < s.ilen :=
  ⟨coreWith 2 [0#8, 1#8] .doneFail, by decide +kernel⟩

theorem witness_ExactFrameLength : [0#8, 1#8] ≠ ([] : List Byte) := by decide

theorem witness_EncodeCannotFail : ∃ s : State, Sound s ∧ s.status = .busy .encode :=
  ⟨_, sound_running_encode, rfl⟩

theorem witness_FullBlockBoundary : ∀ k ∈ [253, 254, 255, 508, 509], (∀ b ∈ rep k 1#8, b ≠ 0#8) ∧ (rep k 1#8).length = k :=
  fun k _ => ⟨rep_mem (by decide), rep_length k _⟩

theorem witness_EncoderNotInjective : (([0#8] : List Byte).getLast? = some 0#8) ∧ (∀ y ∈ rep 254 7#8, y ≠ 0#8) ∧
    losesSeparator (rep 254 7#8) = true ∧ (5#8 : Byte) ≠ 0#8 :=
  ⟨rfl, rep_mem (by decide), by rw [losesSeparator, rep_length]; decide, by decide⟩

/-- `ILEN = FMAX`. -/
theorem witness_DecodeStarts : isBusy (coreWith 1 [1#8, 1#8, 0#8] .idle) = false ∧
    (coreWith 1 [1#8, 1#8, 0#8] .idle).ilen = fmax (coreWith 1 [1#8, 1#8, 0#8] .idle).cfg := by decide +kernel

theorem witness_ExhaustedInputEndsParse : ∃ s : State, s.status = .busy .decode ∧ s.rp = s.ilen ∧
    ∀ i, i < s.wp → (s.obuf.get? i).isSome = true :=
  ⟨{ coreWith 510 [2#8, 5#8] (.busy .decode) with rp := 2, wp := 1, pend := true, obuf := [(0, 5#8)] }, by decide +kernel⟩

theorem witness_TerminatorEndsParse : ∃ s : State, s.status = .busy .decode ∧ s.rp + 1 = s.ilen ∧
    (∀ i, i < s.wp → (s.obuf.get? i).isSome = true) ∧ readIbuf s s.rp = 0#8 ∧ s.rp < fmax s.cfg :=
  ⟨{ coreWith 510 [2#8, 5#8, 0#8] (.busy .decode) with rp := 2, wp := 1, pend := true, obuf := [(0, 5#8)] },
    by decide +kernel⟩

theorem witness_ZeroMidFrameFails : ∃ s : State, s.status = .busy .decode ∧ s.rp + 1 < s.ilen ∧ readIbuf s s.rp = 0#8 ∧
    s.rp < fmax s.cfg :=
  ⟨coreWith 510 [0#8, 0#8] (.busy .decode), by decide +kernel⟩

/-- V67 for LEN_FULL, V64 for LEN_BLK: one byte short. -/
theorem witness_TruncatedBlockFails :
    (∃ s : State, s.status = .busy .decode ∧ s.rp < s.ilen ∧ 255 - 1 > s.ilen - (s.rp + 1) ∧
      readIbuf s s.rp = BitVec.ofNat 8 255 ∧ s.rp < fmax s.cfg) ∧
    (∃ s : State, s.status = .busy .decode ∧ s.rp < s.ilen ∧ (2#8 : Byte).toNat - 1 > s.ilen - (s.rp + 1) ∧
      readIbuf s s.rp = BitVec.ofNat 8 2 ∧ s.rp < fmax s.cfg) ∧
    (∃ t, exec (.lenBlk 1#8) (coreWith 510 [1#8] (.busy .decode)) = .next t ∧ isBusy t = true) :=
  ⟨⟨coreWith 510 (0xFF#8 :: rep 253 0xAA#8) (.busy .decode), by decide +kernel⟩,
    ⟨coreWith 510 [2#8] (.busy .decode), by decide +kernel⟩, exists_next _ (by decide +kernel)⟩

/-- V76: the block fills the input exactly; and with a separator owed. -/
theorem witness_FullBlockAccepted : ∃ s : State, s.status = .busy .decode ∧ s.rp + 255 ≤ s.ilen ∧ s.ilen ≤ fmax s.cfg ∧
    s.wp + s.pend.toNat + 254 ≤ fmax s.cfg ∧ s.pend = true :=
  ⟨{ coreWith 510 (1#8 :: 0xFF#8 :: rep 254 0xAA#8) (.busy .decode) with rp := 1, pend := true }, by decide +kernel⟩

/-- `n = 1` and `n = 254`, each filling the input exactly. -/
theorem witness_ShortBlockAccepted :
    (∃ s : State, s.status = .busy .decode ∧ s.rp + (1#8 : Byte).toNat ≤ s.ilen ∧ s.ilen ≤ fmax s.cfg ∧
      s.wp + s.pend.toNat + ((1#8 : Byte).toNat - 1) ≤ fmax s.cfg ∧ s.pend = true) ∧
    (∃ s : State, s.status = .busy .decode ∧ s.rp + (254#8 : Byte).toNat ≤ s.ilen ∧ s.ilen ≤ fmax s.cfg ∧
      s.wp + s.pend.toNat + ((254#8 : Byte).toNat - 1) ≤ fmax s.cfg) :=
  ⟨⟨{ coreWith 510 [1#8, 1#8] (.busy .decode) with rp := 1, pend := true }, by decide +kernel⟩,
    ⟨coreWith 510 (254#8 :: rep 253 0xAA#8) (.busy .decode), by decide +kernel⟩⟩

/-- An accepted block, a delivered result, a failure. -/
theorem witness_ItemFrame :
    (∃ t, exec (.lenBlk 2#8) v58 = .next t ∧ decide (t.status = .busy .decode) = true) ∧
    (∃ t, exec .lenTerm { v58 with rp := 5 } = .next t ∧ decide (t.status = .doneOk) = true) ∧
    (∃ t, exec .lenZeroIllegal v58 = .next t ∧ decide (t.status = .doneFail) = true) :=
  ⟨exists_next _ (by decide +kernel), exists_next _ (by decide +kernel), exists_next _ (by decide +kernel)⟩

theorem witness_DecodeDeliversPayload :
    (∃ s : State, isBusy s = false ∧ s.host = [] ∧ s.ilen ≤ fmax s.cfg ∧ dec (operand s) = .ok [5#8]) ∧
    (∃ s : State, isBusy s = false ∧ s.host = [] ∧ s.ilen ≤ fmax s.cfg ∧
      dec (operand s) = .fail .invalidLengthByte 0) :=
  ⟨⟨coreWith 1 [2#8, 5#8, 0#8] .idle, by decide +kernel⟩, ⟨coreWith 1 [0#8, 0#8, 0#8] .doneOk, by decide +kernel⟩⟩

theorem witness_DataBytesNotInspected : (rep 254 0#8).length ≤ 254 := by decide +kernel

theorem witness_FailureCausesExact :
    dec [2#8, 7#8, 5#8, 1#8] = .fail .truncatedFrame 2 ∧ dec [0#8, 0#8] = .fail .invalidLengthByte 0 := by decide +kernel

theorem witness_WellFormedFrameParses :
    (∀ b ∈ [Block.mk 1 [], Block.mk 255 (rep 254 1#8)], b.wf = true) ∧ wfFrame [1#8, 0#8] :=
  ⟨by decide +kernel, [⟨1, []⟩], by decide, rfl⟩

theorem witness_RoundTripExactDomain : roundTripSafe [1#8, 0#8] = true ∧ (rep 254 0#8).length < 255 ∧
    (∀ b ∈ rep 255 1#8, b ≠ 0#8) ∧ (∀ b ∈ rep 255 0#8, b = 0#8) :=
  ⟨by decide, by rw [rep_length]; decide, rep_mem (by decide), rep_mem rfl⟩

/-- V41: a payload outside the domain. -/
theorem test_roundTripSafe_V41 : roundTripSafe (rep 254 0xAA#8 ++ [0#8]) = false := by decide +kernel

theorem witness_DecodedLengthBound : dec [2#8, 5#8] = .ok [5#8] := by decide +kernel

theorem witness_DecoderNotInjective : (rep 254 1#8).length = 254 := by decide +kernel

theorem witness_ResetEstablishesInvariant : 1 ≤ (⟨1, false⟩ : Config).nmax := by decide

theorem witness_StepKeepsInvariant : ∃ s t : State, Sound s ∧ step s = .next t :=
  have ⟨t, h, _⟩ := exists_next (o := step (coreWith 1 [2#8, 5#8] (.busy .decode))) isBusy (by decide +kernel)
  ⟨_, t, sound_running_decode, h⟩

theorem witness_CoreStaysInsideBuffers : ∃ s : State, Sound s := ⟨_, sound_running_encode⟩

theorem witness_StartedOperationCompletes : ∃ s : State, Sound s ∧ isBusy s = true ∧ s.host = [] :=
  ⟨_, sound_running_decode, rfl, rfl⟩

theorem witness_FailureLeavesNoPartialResult : ∃ s t : State, step s = .next t ∧ decide (t.status = .doneFail) = true ∧
    s.status ≠ .doneFail := by
  obtain ⟨t, h, ht⟩ := exists_next (o := step (coreWith 1 [0#8, 0#8] (.busy .decode)))
    (fun t => decide (t.status = .doneFail)) (by decide +kernel)
  exact ⟨_, t, h, ht, by decide⟩

theorem witness_OnlyDecodeFails : ∃ s t : State, step s = .next t ∧ decide (t.status = .doneFail) = true :=
  ⟨coreWith 1 [0#8, 0#8] (.busy .decode), exists_next _ (by decide +kernel)⟩

theorem witness_OnlyHostWritesOperands : ∃ s t : State, step s = .next t ∧ (∀ i b rest, s.host ≠ .wrIbuf i b :: rest) ∧
    (∀ v rest, s.host ≠ .wrIlen v :: rest) ∧ (∀ v rest, s.host ≠ .wrSarg v :: rest) ∧ (∀ rest, s.host ≠ .rst :: rest) :=
  have ⟨t, h, _⟩ := exists_next (o := step v58) isBusy (by decide +kernel)
  ⟨v58, t, h, by simp [v58, coreWith, State.resetWith]⟩

theorem witness_OnlySizeWritesSres : ∃ s t : State, step s = .next t ∧ (∀ rest, s.host ≠ .rst :: rest) ∧ t.sres ≠ s.sres ∧
    s.status = .busy .size :=
  ⟨coreWith 1 [] (.busy .size), _, rfl, by simp [coreWith, State.resetWith], by decide +kernel, rfl⟩

/-- Two cores that agree on the operand and differ elsewhere, for DECODE and for SIZE. -/
theorem witness_OutcomeDependsOnlyOnOperand :
    ∃ s s' : State, s ≠ s' ∧ s.host = [] ∧ s'.host = [] ∧ s.sarg = s'.sarg ∧ s.ilen = s'.ilen ∧
      (∀ a, a < s.ilen → readIbuf s a = readIbuf s' a) ∧ s.ilen + 2 ≤ 4 ∧
      (∃ t t' u u' : State, exec .decode s = .next t ∧ exec .decode s' = .next t' ∧ steps 4 t = .next u ∧
        steps 4 t' = .next u') ∧
      ∃ t t' u u' : State, exec .size s = .next t ∧ exec .size s' = .next t' ∧ steps 4 t = .next u ∧
        steps 4 t' = .next u' := by
  let s := coreWith 1 [2#8, 5#8] .idle
  let s' : State := { coreWith 2 [2#8, 5#8, 9#8] .doneFail with ilen := 2, wp := 1, sres := 3 }
  obtain ⟨u, hu, -⟩ := exists_next (o := steps 4 (startDecode s)) (fun _ => true) (by decide +kernel)
  obtain ⟨u', hu', -⟩ := exists_next (o := steps 4 (startDecode s')) (fun _ => true) (by decide +kernel)
  obtain ⟨v, hv, -⟩ := exists_next (o := steps 4 (startFlags .size s)) (fun _ => true) (by decide +kernel)
  obtain ⟨v', hv', -⟩ := exists_next (o := steps 4 (startFlags .size s')) (fun _ => true) (by decide +kernel)
  exact ⟨s, s', by decide +kernel, rfl, rfl, rfl, rfl, by decide +kernel, by decide +kernel,
    ⟨startDecode s, startDecode s', u, u', execDecode_next.2 ⟨rfl, by decide +kernel, rfl⟩,
      execDecode_next.2 ⟨rfl, by decide +kernel, rfl⟩, hu, hu'⟩,
    ⟨startFlags .size s, startFlags .size s', v, v', execSize_next.2 ⟨rfl, rfl⟩, execSize_next.2 ⟨rfl, rfl⟩, hv, hv'⟩⟩

end Sys2Proof.Tests
end

