-- ==== Sys2Proof/Proofs/Parameters.lean ====
section
/-! Proofs/Parameters.lean: `FMAX` and `LW` as functions of `NMAX` (R5). -/

namespace Sys2Proof.Machine

theorem fmax_ne_zero (c : Config) : fmax c ≠ 0 :=
  Nat.ne_zero_of_lt (le_fmax c)

/-- R5: `LW` is the least width that holds `FMAX`; `FMAX` is never 0, so its binary logarithm decides. -/
theorem fmax_lt_two_pow_iff (c : Config) (L : Nat) : fmax c < 2 ^ L ↔ lw c ≤ L :=
  calc fmax c < 2 ^ L
    _ ↔ (fmax c).log2 < L := (Nat.log2_lt (fmax_ne_zero c)).symm
    _ ↔ lw c ≤ L := Nat.lt_iff_add_one_le

/-- Settles O1: the closed form is the definition of `esize`, and `lw` is the least width by `fmax_lt_two_pow_iff`. -/
theorem parametersOfR5 : Obligations.ParametersOfR5 :=
  fun c => ⟨rfl, rfl, fmax_lt_two_pow_iff c⟩

end Sys2Proof.Machine
end

/-! ## Turns: the core's turn as a function, and a step's answers, one case per mover

Bounds that only decide whether a turn faults are left out: the invariant gives them. -/

namespace Sys2Proof.Machine

/-! ### The core's turn -/

/-- The state after one step of a running ENCODE (R79). -/
def encoded (s : State) : State :=
  if s.fdone then deliver (appended [0#8] s)
  else appended (blockBytes (frameNext s).2 (frameNext s).1) (frameNext s).2

/-- The state after one step of a running DECODE (R92 to R97), by the byte at the cursor. -/
def parsed (s : State) : State :=
  if s.rp = s.ilen then deliver s
  else if headerByte s = 0#8 then
    if s.rp + 1 = s.ilen then deliver s else raiseFailure .invalidLengthByte s.rp s
  else if dataCount (headerByte s).toNat > s.ilen - (s.rp + 1) then raiseFailure .truncatedFrame s.rp s
  else accepted (blockAtCursor (headerByte s).toNat s) s

/-- The state after the core's turn. -/
def advance (s : State) : State :=
  match s.status with
  | .busy .size => completeSize s
  | .busy .encode => encoded s
  | .busy .decode => parsed s
  | .idle | .doneOk | .doneFail => s

theorem encodeStep_eq_encoded {s t : State} (h : encodeStep s = .next t) : t = encoded s := by
  obtain ⟨-, ⟨hd, -, rfl⟩ | ⟨hd, -, rfl⟩⟩ := encodeStep_next.1 h <;> simp [encoded, hd]

/-- The item fetched, by the byte at the cursor (R50). -/
theorem fetchItem_cases (s : State) :
    (headerByte s = 0#8 ∧ s.rp + 1 = s.ilen ∧ fetchItem s = .lenTerm) ∨
    (headerByte s = 0#8 ∧ s.rp + 1 ≠ s.ilen ∧ fetchItem s = .lenZeroIllegal) ∨
    (headerByte s ≠ 0#8 ∧
      (fetchItem s = .lenFull ∧ (headerByte s).toNat = 255 ∨ fetchItem s = .lenBlk (headerByte s))) := by
  unfold fetchItem decodeLen
  by_cases h0 : headerByte s = 0#8
  · by_cases hl : s.rp + 1 = s.ilen
    · simp [h0, hl, atLastByte]
    · simp [h0, hl, atLastByte]
  · by_cases hf : headerByte s = 255#8
    · simp [hf]
    · simp [h0, hf]

theorem lengthByte_eq_parsed {s t : State} (h0 : headerByte s ≠ 0#8) (hr : s.rp < s.ilen)
    (h : lengthByte (headerByte s).toNat s = .next t) : t = parsed s := by
  have hne : s.rp ≠ s.ilen := by omega
  rcases lengthByte_next.1 h with ⟨hc, rfl⟩ | ⟨hc, -, -, rfl⟩
  · simp [parsed, hne, h0, hc]
  · simp [parsed, hne, h0, Nat.not_lt.2 hc]

theorem parseNext_eq_parsed {s t : State} (h : parseNext s = .next t) : t = parsed s := by
  rcases parseNext_next.1 h with ⟨hr, rfl⟩ | ⟨hr, -, h⟩
  · simp [parsed, hr]
  rcases fetchItem_cases s with ⟨h0, hl, hi⟩ | ⟨h0, hl, hi⟩ | ⟨h0, ⟨hi, hn⟩ | hi⟩ <;> rw [hi] at h
  · obtain ⟨-, -, rfl⟩ := execLenTerm_next.1 h
    simp [parsed, hr, h0, hl]
  · obtain ⟨-, -, rfl⟩ := execLenZeroIllegal_next.1 h
    simp [parsed, hr, h0, hl]
  · obtain ⟨-, hlt, h⟩ := execLenFull_next.1 h
    exact lengthByte_eq_parsed h0 hlt (hn ▸ h)
  · obtain ⟨-, hlt, h⟩ := execLenBlk_next.1 h
    exact lengthByte_eq_parsed h0 hlt h

theorem advance_of_ready {s : State} (h : isBusy s = false) : advance s = s := by
  unfold advance
  split <;> simp_all [isBusy]

theorem advance_size {s : State} (h : s.status = .busy .size) : advance s = completeSize s := by simp [advance, h]
theorem advance_encode {s : State} (h : s.status = .busy .encode) : advance s = encoded s := by simp [advance, h]
theorem advance_decode {s : State} (h : s.status = .busy .decode) : advance s = parsed s := by simp [advance, h]

/-- What ties `advance` to the model: a core's turn that answers a state answers this one. -/
theorem coreStep_eq_advance {s t : State} (h : coreStep s = .next t) : t = advance s := by
  rcases coreStep_next.1 h with ⟨hb, rfl⟩ | ⟨hs, rfl⟩ | ⟨hs, h⟩ | ⟨hs, h⟩
  · exact (advance_of_ready hb).symm
  · exact (advance_size hs).symm
  · rw [advance_encode hs]
    exact encodeStep_eq_encoded h
  · rw [advance_decode hs]
    exact parseNext_eq_parsed h

/-! ### What the turn leaves alone -/

/-- FRAME_NEXT writes only the framer's registers (R75). -/
theorem frameNext_snd (s : State) :
    (frameNext s).2 = { s with fp := (frameNext s).2.fp, fdone := (frameNext s).2.fdone } := by
  rcases frameNext_cases s with ⟨-, h⟩ | ⟨-, -, h⟩ | ⟨-, -, h⟩ <;> rw [h]

/-- A length byte that passes the test of R96 names a block inside the operand. -/
theorem block_inside {s : State} (h0 : headerByte s ≠ 0#8)
    (hc : ¬ dataCount (headerByte s).toNat > s.ilen - (s.rp + 1)) :
    1 ≤ (headerByte s).toNat ∧ (s.rp < s.ilen → s.rp + (headerByte s).toNat ≤ s.ilen) := by
  have hn : (headerByte s).toNat ≠ 0 := fun h => h0 (BitVec.eq_of_toNat_eq h)
  unfold dataCount at hc
  omega

/-- The three outcomes of a step of DECODE; an accepted block lies inside the operand. -/
theorem parsed_cases (s : State) :
    parsed s = deliver s ∨ (∃ cause, parsed s = raiseFailure cause s.rp s) ∨
      ∃ n, 1 ≤ n ∧ (s.rp ≤ s.ilen → s.rp + n ≤ s.ilen) ∧ parsed s = accepted (blockAtCursor n s) s := by
  unfold parsed
  split_ifs with hr h0 hl hc
  · exact .inl rfl
  · exact .inl rfl
  · exact .inr (.inl ⟨_, rfl⟩)
  · exact .inr (.inl ⟨_, rfl⟩)
  · obtain ⟨hn, hin⟩ := block_inside h0 hc
    exact .inr (.inr ⟨_, hn, fun hle => hin (lt_of_le_of_ne hle hr), rfl⟩)

theorem advance_cases (s : State) :
    (isBusy s = false ∧ advance s = s) ∨ (s.status = .busy .size ∧ advance s = completeSize s) ∨
      (s.status = .busy .encode ∧ advance s = encoded s) ∨ (s.status = .busy .decode ∧ advance s = parsed s) := by
  rcases hs : s.status with _ | op | _ | _
  · exact .inl ⟨by simp [isBusy, hs], by simp [advance, hs]⟩
  · cases op <;> simp [advance, hs]
  · exact .inl ⟨by simp [isBusy, hs], by simp [advance, hs]⟩
  · exact .inl ⟨by simp [isBusy, hs], by simp [advance, hs]⟩

/-- What the core's turn never writes: the operands, the host's pending moves and what it has read. -/
structure TurnFrame (s t : State) : Prop where
  operands : SameOperands s t
  host : t.host = s.host
  got : t.got = s.got

theorem encoded_frame (s : State) : TurnFrame s (encoded s) ∧ (encoded s).sres = s.sres := by
  unfold encoded
  split
  · exact ⟨⟨⟨rfl, rfl, rfl, fun _ => rfl⟩, rfl, rfl⟩, rfl⟩
  · rw [frameNext_snd s]
    exact ⟨⟨⟨rfl, rfl, rfl, fun _ => rfl⟩, rfl, rfl⟩, rfl⟩

theorem parsed_frame (s : State) : TurnFrame s (parsed s) ∧ (parsed s).sres = s.sres := by
  rcases parsed_cases s with h | ⟨cause, h⟩ | ⟨n, -, -, h⟩ <;> rw [h] <;>
    exact ⟨⟨⟨rfl, rfl, rfl, fun _ => rfl⟩, rfl, rfl⟩, rfl⟩

theorem advance_frame (s : State) : TurnFrame s (advance s) := by
  rcases advance_cases s with ⟨-, h⟩ | ⟨-, h⟩ | ⟨-, h⟩ | ⟨-, h⟩ <;> rw [h]
  · exact ⟨⟨rfl, rfl, rfl, fun _ => rfl⟩, rfl, rfl⟩
  · exact ⟨⟨rfl, rfl, rfl, fun _ => rfl⟩, rfl, rfl⟩
  · exact (encoded_frame s).1
  · exact (parsed_frame s).1

theorem advance_sres {s : State} (h : s.status ≠ .busy .size) : (advance s).sres = s.sres := by
  rcases advance_cases s with ⟨-, ha⟩ | ⟨hs, -⟩ | ⟨-, ha⟩ | ⟨-, ha⟩
  · rw [ha]
  · exact absurd hs h
  · rw [ha]
    exact (encoded_frame s).2
  · rw [ha]
    exact (parsed_frame s).2

/-- A turn of ENCODE ends with the operation still running or DONE_OK. -/
theorem encoded_status (s : State) : (encoded s).status = s.status ∨ (encoded s).status = .doneOk := by
  unfold encoded
  split
  · exact .inr rfl
  · rw [frameNext_snd s]
    exact .inl rfl

/-! ### A whole step -/

/-- What a step answers, by who moves: one constructor per host move of R151 with its guard, and the core's turn. -/
inductive Moved (s : State) : State → Prop where
  | wrIbuf {i b rest} (move : s.host = .wrIbuf i b :: rest) (ready : isBusy s = false) (inside : i < fmax s.cfg) :
      Moved s { s with host := rest, ibuf := s.ibuf.write i b }
  | wrIlen {v rest} (move : s.host = .wrIlen v :: rest) (ready : isBusy s = false) (fits : v < 2 ^ lw s.cfg) :
      Moved s { s with host := rest, ilen := v }
  | wrSarg {v rest} (move : s.host = .wrSarg v :: rest) (ready : isBusy s = false) (fits : v < 2 ^ lw s.cfg) :
      Moved s { s with host := rest, sarg := v }
  | size {rest} (ready : isBusy s = false) : Moved s (startFlags .size { s with host := rest })
  | encode {rest} (ready : isBusy s = false) (fits : s.ilen ≤ s.cfg.nmax) : Moved s (startEncode { s with host := rest })
  | decode {rest} (ready : isBusy s = false) (fits : s.ilen ≤ fmax s.cfg) : Moved s (startDecode { s with host := rest })
  | read {g rest} : Moved s (receive g { s with host := rest })
  | core {rest} : Moved s (advance { s with host := rest })
  | rst {rest} (move : s.host = .rst :: rest) : Moved s (resetEvent { s with host := rest })

theorem decodeCmd_cases (op : BitVec 2) :
    decodeCmd op = .size ∨ decodeCmd op = .encode ∨ decodeCmd op = .decode ∨ decodeCmd op = .cmdReserved := by
  unfold decodeCmd
  split_ifs <;> simp

theorem moved_of_command {s t : State} {op : BitVec 2} {rest : List HostMove}
    (h : exec (decodeCmd op) { s with host := rest } = .next t) : Moved s t := by
  rcases decodeCmd_cases op with hd | hd | hd | hd <;> rw [hd] at h
  · obtain ⟨hb, rfl⟩ := execSize_next.1 h
    exact .size hb
  · obtain ⟨hb, hl, rfl⟩ := execEncode_next.1 h
    exact .encode hb hl
  · obtain ⟨hb, hl, rfl⟩ := execDecode_next.1 h
    exact .decode hb hl
  · exact absurd h execCmdReserved_next

theorem moved_of_coreStep {s t : State} {rest : List HostMove} (h : coreStep { s with host := rest } = .next t) :
    Moved s t := by
  rw [coreStep_eq_advance h]
  exact .core

theorem moved_of_step {s t : State} (h : step s = .next t) : Moved s t := by
  rcases hh : s.host with _ | ⟨m, rest⟩
  · rw [step_noMove hh] at h
    exact moved_of_coreStep (rest := s.host) h
  · rw [step_move hh] at h
    rcases hostTurn_next h with ⟨i, b, rfl, hb, hi, rfl⟩ | ⟨v, rfl, hb, hv, rfl⟩ | ⟨v, rfl, hb, hv, rfl⟩ |
      ⟨op, rfl, h⟩ | ⟨g, -, -, rfl⟩ | ⟨rfl, -, h⟩ | ⟨rfl, h⟩ | ⟨rfl, rfl⟩
    · exact .wrIbuf hh hb hi
    · exact .wrIlen hh hb hv
    · exact .wrSarg hh hb hv
    · exact moved_of_command h
    · exact .read
    · exact moved_of_coreStep (rest := s.host) h
    · exact moved_of_coreStep h
    · exact .rst hh

end Sys2Proof.Machine

/-! ## The invariant: it holds after reset (R26, R27) and every step keeps it, one lemma per update. -/

namespace Sys2Proof.Machine

/-! ### Reset -/

theorem Sound.resetWith {c : Config} (h : 1 ≤ c.nmax) : Sound (State.resetWith c) where
  nmax_pos := h
  ilen_fits := Nat.two_pow_pos _
  sarg_fits := Nat.two_pow_pos _
  sres_fits := Nat.two_pow_pos _
  olen_le := Nat.zero_le _
  epos_le := Nat.zero_le _
  fp_le := Nat.zero_le _
  rp_le := Nat.zero_le _
  wp_le := Nat.zero_le _
  ibuf_wf := rfl
  obuf_wf := rfl
  ibuf_inside := nofun
  obuf_inside := nofun
  err_iff_fail := by simp [State.resetWith]
  epos_of_fail := fun _ => rfl
  fail_olen := fun _ => rfl
  result_extent := by simp [State.resetWith]
  running_encode := nofun
  running_decode := nofun

/-- Settles O53. -/
theorem resetEstablishesInvariant : Obligations.ResetEstablishesInvariant :=
  ⟨Sound.resetWith (by decide), fun _ => Sound.resetWith⟩

theorem Sound.resetEvent {s : State} (h : Sound s) : Sound (resetEvent s) :=
  { (Sound.resetWith h.nmax_pos).of_host s.host s.got with
    running_encode := nofun
    running_decode := nofun }

/-! ### The host's writes -/

theorem Sound.write_ibuf {s : State} (h : Sound s) (hb : isBusy s = false) {i : Nat} (b : Byte) (hi : i < fmax s.cfg) :
    Sound { s with ibuf := s.ibuf.write i b } :=
  { h with
    ibuf_wf := write_wf _ _ _ h.ibuf_wf
    ibuf_inside := writeList_inside (bs := [b]) h.ibuf_inside hi
    running_encode := fun e => absurd e (isBusy_false_iff.1 hb _)
    running_decode := fun e => absurd e (isBusy_false_iff.1 hb _) }

theorem Sound.write_ilen {s : State} (h : Sound s) (hb : isBusy s = false) {v : Nat} (hv : v < 2 ^ lw s.cfg) :
    Sound { s with ilen := v } :=
  { h with
    ilen_fits := hv
    running_encode := fun e => absurd e (isBusy_false_iff.1 hb _)
    running_decode := fun e => absurd e (isBusy_false_iff.1 hb _) }

theorem Sound.write_sarg {s : State} (h : Sound s) (hb : isBusy s = false) {v : Nat} (hv : v < 2 ^ lw s.cfg) :
    Sound { s with sarg := v } :=
  { h with
    sarg_fits := hv
    running_encode := fun e => absurd e (isBusy_false_iff.1 hb _)
    running_decode := fun e => absurd e (isBusy_false_iff.1 hb _) }

/-! ### The starts (R46) -/

theorem Sound.startFlags_size {s : State} (h : Sound s) (hb : isBusy s = false) : Sound (startFlags .size s) :=
  { h with
    epos_le := Nat.zero_le _
    err_iff_fail := by simp
    epos_of_fail := fun _ => rfl
    fail_olen := nofun
    result_extent := fun _ _ => h.result_extent (isBusy_false_iff.1 hb _) (isBusy_false_iff.1 hb _)
    running_encode := nofun
    running_decode := nofun }

/-- The room that ENCODE has at its start is the whole of `OBUF` (R84). -/
theorem encodeRoom_le_fmax {c : Config} {x : Nat} (h : x ≤ c.nmax) (h0 : x ≠ 0) : encodeRoom x ≤ fmax c := by
  rw [encodeRoom, if_neg h0]
  exact esize_mono h

theorem Sound.startEncode {s : State} (h : Sound s) (hl : s.ilen ≤ s.cfg.nmax) : Sound (startEncode s) :=
  have room : 0 + (if decide (s.ilen = 0) then 1 else encodeRoom (s.ilen - 0)) ≤ fmax s.cfg := by
    have := le_fmax s.cfg
    by_cases h0 : s.ilen = 0
    · simp [h0]; omega
    · simpa [h0] using encodeRoom_le_fmax hl h0
  { h with
    olen_le := Nat.zero_le _
    epos_le := Nat.zero_le _
    fp_le := Nat.zero_le _
    wp_le := Nat.zero_le _
    err_iff_fail := by simp
    epos_of_fail := fun _ => rfl
    fail_olen := nofun
    result_extent := fun e => absurd rfl e
    running_encode := fun _ => ⟨⟨hl, Nat.zero_le _, room⟩, ⟨rfl, fun _ hi => absurd hi (Nat.not_lt_zero _)⟩⟩
    running_decode := nofun }

theorem Sound.startDecode {s : State} (h : Sound s) (hl : s.ilen ≤ fmax s.cfg) : Sound (startDecode s) :=
  { h with
    olen_le := Nat.zero_le _
    epos_le := Nat.zero_le _
    rp_le := Nat.zero_le _
    wp_le := Nat.zero_le _
    err_iff_fail := by simp
    epos_of_fail := fun _ => rfl
    fail_olen := nofun
    result_extent := fun _ e => absurd rfl e
    running_encode := nofun
    running_decode := fun _ =>
      ⟨⟨hl, Nat.zero_le _, Nat.le_refl _⟩, ⟨rfl, fun _ hi => absurd hi (Nat.not_lt_zero _)⟩⟩ }

/-! ### The completions -/

/-- R13: the estimate of a number of `L` bits fits in `L + 1`. -/
theorem esize_lt_two_pow_succ {n L : Nat} (h : n < 2 ^ L) : esize n < 2 ^ (L + 1) :=
  calc esize n
    _ ≤ 2 * n + 1 := by unfold esize; omega
    _ < 2 ^ (L + 1) := by rw [Nat.pow_succ]; omega

theorem Sound.err_none {s : State} (h : Sound s) (hs : s.status ≠ .doneFail) : s.err = .none := by
  by_contra he
  exact hs (h.err_iff_fail.1 he)

theorem Sound.completeSize {s : State} (h : Sound s) (hs : s.status = .busy .size) : Sound (completeSize s) :=
  { h with
    sres_fits := esize_lt_two_pow_succ h.sarg_fits
    err_iff_fail := by simp [h.err_none (s := s) (by simp [hs])]
    epos_of_fail := fun _ => h.epos_of_fail (by simp [hs])
    fail_olen := nofun
    result_extent := fun _ _ => h.result_extent (by simp [hs]) (by simp [hs])
    running_encode := nofun
    running_decode := nofun }

/-- What the writers leave in `OBUF` when the write index is `w`: canonical, inside the buffer, no gap below `w`. -/
structure Written (c : Config) (m : Memory) (w : Nat) : Prop where
  fits : w ≤ fmax c
  wf : m.wf = true
  inside : ∀ e ∈ m, e.1 < fmax c
  listed : ∀ i, i < w → (m.get? i).isSome = true

theorem Sound.written {s : State} (h : Sound s) (hr : RunSound s) : Written s.cfg s.obuf s.wp :=
  ⟨h.wp_le, h.obuf_wf, h.obuf_inside, hr.written⟩

theorem Written.append {c : Config} {m : Memory} {w : Nat} (h : Written c m w) {bs : List Byte}
    (hb : w + bs.length ≤ fmax c) : Written c (m.writeList w bs) (w + bs.length) where
  fits := hb
  wf := writeList_wf _ _ _ h.wf
  inside := writeList_inside h.inside hb
  listed := fun _ => writeList_isSome h.listed

/-- The delivery of what has been written, whatever the last turn still appended to it (R79, R104). -/
theorem Sound.deliver {s : State} (h : Sound s) (hs : s.status ≠ .doneFail) {m : Memory} {w : Nat}
    (hw : Written s.cfg m w) : Sound (deliver { s with obuf := m, wp := w }) :=
  { h with
    olen_le := hw.fits
    wp_le := hw.fits
    obuf_wf := keepBelow_wf _ _ hw.wf
    obuf_inside := fun e he => hw.inside e (keepBelow_subset _ _ e he)
    err_iff_fail := by simp [h.err_none hs]
    epos_of_fail := fun _ => h.epos_of_fail hs
    fail_olen := nofun
    result_extent := fun _ _ i => by
      rw [get?_deliver]
      split_ifs with hi
      · exact iff_of_true (hw.listed i hi) hi
      · exact iff_of_false nofun hi
    running_encode := nofun
    running_decode := nofun }

theorem causeErr_ne_none (cause : Cause) : causeErr cause ≠ .none := by cases cause <;> decide

theorem Sound.raiseFailure {s : State} (h : Sound s) (cause : Cause) : Sound (raiseFailure cause s.rp s) :=
  { h with
    olen_le := Nat.zero_le _
    epos_le := h.rp_le
    obuf_wf := rfl
    obuf_inside := nofun
    err_iff_fail := iff_of_true (causeErr_ne_none cause) rfl
    epos_of_fail := fun e => absurd rfl e
    fail_olen := fun _ => rfl
    result_extent := fun _ _ _ => by simp
    running_encode := nofun
    running_decode := nofun }

/-! ### The turns of a running ENCODE -/

theorem Sound.encode_block {s : State} (h : Sound s) (hs : s.status = .busy .encode) {bs : List Byte} {fp : Nat}
    {fdone : Bool} (hf : fp ≤ s.ilen)
    (hroom : s.wp + bs.length + (if fdone then 1 else encodeRoom (s.ilen - fp)) ≤ fmax s.cfg) :
    Sound (appended bs { s with fp := fp, fdone := fdone }) := by
  obtain ⟨he, hr⟩ := h.running_encode hs
  have hw := (h.written hr).append (bs := bs) (by omega)
  have hfmax := le_fmax s.cfg
  have hl := he.ilen_le
  exact { h with
    fp_le := by show fp ≤ fmax s.cfg; omega
    wp_le := hw.fits
    obuf_wf := hw.wf
    obuf_inside := hw.inside
    result_extent := fun e => absurd hs e
    running_encode := fun _ => ⟨⟨hl, hf, hroom⟩, ⟨hr.olen_zero, hw.listed⟩⟩
    running_decode := fun e => nomatch hs.symm.trans e }

/-- The framer's step uses up no more room than its block, and stays inside the operand (R73, R74, R84). -/
theorem frameNext_room {s : State} (h : EncodeSound s) (hd : s.fdone = false) :
    (frameNext s).2.fp ≤ s.ilen ∧
      s.wp + ((frameNext s).1.cnt + 1) +
        (if (frameNext s).2.fdone then 1 else encodeRoom (s.ilen - (frameNext s).2.fp)) ≤ fmax s.cfg := by
  obtain ⟨hfe, hel, -, -⟩ := runEnd_spec h.fp_le
  have hroom := h.room
  simp only [hd, Bool.false_eq_true, if_false] at hroom
  rcases frameNext_cases s with ⟨hc, hn⟩ | ⟨hc, he, hn⟩ | ⟨hc, he, hn⟩
  · have := encodeRoom_full (x := s.ilen - s.fp) (by omega)
    simp only [hn, hd, Bool.false_eq_true, if_false, Nat.sub_add_eq]
    omega
  · have := encodeRoom_last (s.ilen - s.fp)
    simp only [hn, if_true]
    exact ⟨h.fp_le, by omega⟩
  · have := encodeRoom_separator (x := s.ilen - s.fp) (L := runEnd s - s.fp) (by omega)
    simp only [hn, hd, Bool.false_eq_true, if_false]
    rw [show s.ilen - (runEnd s + 1) = s.ilen - s.fp - (runEnd s - s.fp) - 1 by omega]
    omega

theorem Sound.encoded {s : State} (h : Sound s) (hs : s.status = .busy .encode) : Sound (encoded s) := by
  obtain ⟨he, hr⟩ := h.running_encode hs
  unfold Machine.encoded
  split_ifs with hd
  · have hroom := he.room
    rw [if_pos hd] at hroom
    exact h.deliver (by simp [hs]) ((h.written hr).append hroom)
  · obtain ⟨hf, hroom⟩ := frameNext_room he (by simpa using hd)
    rw [← blockBytes_length (frameNext s).2] at hroom
    rw [frameNext_snd s] at hroom ⊢
    exact h.encode_block hs hf hroom

/-! ### The turns of a running DECODE -/

theorem Sound.accepted {s : State} (h : Sound s) (hs : s.status = .busy .decode) {n : Nat} (hn : 1 ≤ n)
    (hin : s.rp + n ≤ s.ilen) : Sound (accepted (blockAtCursor n s) s) := by
  obtain ⟨hd, hr⟩ := h.running_decode hs
  have hl := hd.ilen_le
  have hwp := hd.wp_le
  have hlen : (unstuffBytes s (blockAtCursor n s)).length = s.pend.toNat + (n - 1) := unstuffBytes_length s _
  have hpend : (isShort n).toNat ≤ 1 := Bool.toNat_le _
  have hw := (h.written hr).append (bs := unstuffBytes s (blockAtCursor n s)) (by omega)
  have hbound : s.wp + (unstuffBytes s (blockAtCursor n s)).length + (isShort n).toNat ≤ s.rp + n := by omega
  exact { h with
    rp_le := Nat.le_trans hin hl
    wp_le := hw.fits
    obuf_wf := hw.wf
    obuf_inside := hw.inside
    result_extent := fun _ e => absurd hs e
    running_encode := fun e => nomatch hs.symm.trans e
    running_decode := fun _ => ⟨⟨hl, hin, hbound⟩, ⟨hr.olen_zero, hw.listed⟩⟩ }

theorem Sound.parsed {s : State} (h : Sound s) (hs : s.status = .busy .decode) : Sound (parsed s) := by
  obtain ⟨hd, hr⟩ := h.running_decode hs
  rcases parsed_cases s with hp | ⟨cause, hp⟩ | ⟨n, hn, hin, hp⟩ <;> rw [hp]
  · exact h.deliver (by simp [hs]) (h.written hr)
  · exact h.raiseFailure cause
  · exact h.accepted hs hn (hin hd.rp_le)

/-! ### Every step -/

theorem Sound.advance {s : State} (h : Sound s) : Sound (advance s) := by
  rcases advance_cases s with ⟨-, ha⟩ | ⟨hs, ha⟩ | ⟨hs, ha⟩ | ⟨hs, ha⟩ <;> rw [ha]
  · exact h
  · exact h.completeSize hs
  · exact h.encoded hs
  · exact h.parsed hs

/-- Settles O54: each move keeps the invariant, and the host's lists play no part in it. -/
theorem stepKeepsInvariant : Obligations.StepKeepsInvariant := by
  intro s t h hstep
  have of_moves (rest : List HostMove) : Sound { s with host := rest } := h.of_host rest s.got
  cases moved_of_step hstep with
  | @wrIbuf _ _ rest _ ready inside => exact (of_moves rest).write_ibuf ready _ inside
  | @wrIlen _ rest _ ready fits => exact (of_moves rest).write_ilen ready fits
  | @wrSarg _ rest _ ready fits => exact (of_moves rest).write_sarg ready fits
  | size ready => exact (of_moves _).startFlags_size ready
  | encode _ fits => exact (of_moves _).startEncode fits
  | decode _ fits => exact (of_moves _).startDecode fits
  | read => exact h.of_host _ _
  | core => exact (of_moves _).advance
  | rst => exact (of_moves _).resetEvent

end Sys2Proof.Machine

/-! ## What the host's moves and the starts do (R15 to R18, R26, R46, R135, R151) -/

namespace Sys2Proof.Machine

/-! ### Reset -/

/-- Settles O2: the values are the fields of `State.resetWith`, and `State.reset` takes the standard parameters. -/
theorem resetRegisterValues : Obligations.ResetRegisterValues := by
  refine ⟨?_, Config.standard, by decide, rfl⟩
  rintro c s rfl
  exact ⟨rfl, rfl, rfl, rfl, rfl, rfl, rfl, rfl, fun _ => ⟨rfl, rfl⟩⟩

theorem step_rst {s : State} {rest : List HostMove} (h : s.host = .rst :: rest) :
    step s = .next (resetEvent { s with host := rest }) := step_move h

/-- Settles O3: the state answered is `resetEvent`, whatever the status was. -/
theorem resetEventAbandonsOperation : Obligations.ResetEventAbandonsOperation := fun s _ h =>
  ⟨_, step_rst h, rfl, rfl, rfl, rfl, rfl, rfl, rfl, rfl, fun _ => ⟨rfl, rfl⟩,
    Nat.succ_ne_self s.ibufDraw, Nat.succ_ne_self s.obufDraw, rfl, rfl, rfl⟩

/-! ### Commands -/

/-- Settles O7: every command word decodes to one of the four rows without an operand. -/
theorem stepRunsDecodedCommand : Obligations.StepRunsDecodedCommand := by
  intro s op rest h
  refine ⟨?_, step_move h⟩
  rcases decodeCmd_cases op with hd | hd | hd | hd <;> rw [hd] <;> rfl

/-- Settles O16, one start at a time. -/
theorem startsStoreNothing : Obligations.StartsStoreNothing := by
  rintro i s t (rfl | rfl | rfl) h
  · obtain ⟨-, rfl⟩ := execSize_next.1 h
    exact ⟨⟨rfl, rfl, rfl, fun _ => rfl⟩, fun _ => rfl, rfl, rfl, rfl, fun _ => ⟨rfl, rfl⟩, fun _ => ⟨rfl, rfl⟩,
      fun _ => ⟨rfl, rfl⟩⟩
  · obtain ⟨-, -, rfl⟩ := execEncode_next.1 h
    exact ⟨⟨rfl, rfl, rfl, fun _ => rfl⟩, fun _ => rfl, rfl, rfl, rfl, nofun, fun e => absurd rfl e,
      fun _ => ⟨rfl, rfl⟩⟩
  · obtain ⟨-, -, rfl⟩ := execDecode_next.1 h
    exact ⟨⟨rfl, rfl, rfl, fun _ => rfl⟩, fun _ => rfl, rfl, rfl, rfl, nofun, fun _ => ⟨rfl, rfl⟩,
      fun e => absurd rfl e⟩

/-! ### The host's writes -/

theorem unlessBusy_of_ready {s : State} (h : isBusy s = false) (k : Out) : unlessBusy s k = k := by
  simp [unlessBusy, h]

theorem readIbuf_write_same (s : State) (i : Nat) (b : Byte) : readIbuf { s with ibuf := s.ibuf.write i b } i = b := by
  simp [readIbuf]

theorem readIbuf_write_other (s : State) {i a : Nat} (b : Byte) (h : a ≠ i) :
    readIbuf { s with ibuf := s.ibuf.write i b } a = readIbuf s a := by
  simp [readIbuf, get?_write_other _ b h]

/-- Settles O10: the guards of the three writes hold, and `IBUF` obeys the laws of read after write. -/
theorem hostWritesStore : Obligations.HostWritesStore := by
  intro s rest hb
  refine ⟨fun i b h hi => ⟨{ s with host := rest, ibuf := s.ibuf.write i b }, ?_, rfl, readIbuf_write_same s i b,
    fun a ha => readIbuf_write_other s b ha⟩, fun v h hv => ?_, fun v h hv => ?_⟩ <;>
    rw [step_move h, hostTurn, unlessBusy_of_ready hb]
  · exact if_pos hi
  · exact if_pos hv
  · exact if_pos hv

/-! ### The host's reads -/

theorem step_readStatus {s : State} {rest : List HostMove} (h : s.host = .rd .status :: rest) :
    step s = .next { s with host := rest, got := .reg .status (statusCode s.status).toNat :: s.got } :=
  step_move h

/-- R151: a register is read as it stands while the core is not BUSY. -/
theorem step_readReg {s : State} {r : ReadReg} {rest : List HostMove} (hb : isBusy s = false)
    (h : s.host = .rd r :: rest) : step s = .next { s with host := rest, got := .reg r (regValue s r) :: s.got } := by
  rw [step_move h]
  exact hostRead_next.2 ⟨.inr hb, by cases r <;> rfl⟩

/-- Byte `i` of the result is the byte at `OBUF[i]` (R18). -/
theorem result_getElem? {s : State} {i : Nat} (h : i < s.olen) : (result s)[i]? = some (readObuf s i) := by
  simp [result, h]

/-- R15: the status codes. -/
theorem statusCode_of_code {st : Status} {v : Nat}
    (h : st = .idle ∧ v = 0 ∨ (∃ op, st = .busy op) ∧ v = 1 ∨ st = .doneOk ∧ v = 2 ∨ st = .doneFail ∧ v = 3) :
    (statusCode st).toNat = v := by
  rcases h with ⟨rfl, rfl⟩ | ⟨⟨op, rfl⟩, rfl⟩ | ⟨rfl, rfl⟩ | ⟨rfl, rfl⟩ <;> rfl

/-- R16: the failure codes. -/
theorem errCode_of_code {e : ErrCode} {v : Nat}
    (h : e = .none ∧ v = 0 ∨ e = .truncated ∧ v = 1 ∨ e = .invalidLen ∧ v = 2) :
    (errCode e).toNat = v := by
  rcases h with ⟨rfl, rfl⟩ | ⟨rfl, rfl⟩ | ⟨rfl, rfl⟩ <;> rfl

theorem step_readObuf {s : State} {i : Nat} {rest : List HostMove} (hb : isBusy s = false)
    (h : s.host = .rdObuf i :: rest) (hi : i < fmax s.cfg) :
    step s = .next { s with host := rest, got := .obuf i (readObuf s i) :: s.got } := by
  rw [step_move h, hostTurn, unlessBusy_of_ready hb]
  exact if_pos hi

/-- U14: the platform decides whether `IBUF` can be read back. -/
theorem step_readIbuf {s : State} {i : Nat} {rest : List HostMove} (hb : isBusy s = false)
    (h : s.host = .rdIbuf i :: rest) :
    (s.cfg.ibufReadable = true → i < fmax s.cfg →
      step s = .next { s with host := rest, got := .ibuf i (readIbuf s i) :: s.got }) ∧
    (s.cfg.ibufReadable = false → step s = .refused .ibufNotReadable) := by
  rw [step_move h, hostTurn, unlessBusy_of_ready hb]
  exact ⟨fun hr hi => (if_pos hr).trans (if_pos hi), fun hr => if_neg (by simp [hr])⟩

/-- Settles O11: every register by `step_readReg`, the codes by their tables. -/
theorem hostReadsGiveValues : Obligations.HostReadsGiveValues := by
  refine fun s rest => ⟨fun v h hv => ?_, fun hb => ⟨step_readReg hb, step_readReg hb, step_readReg hb,
    step_readReg hb, step_readReg hb, fun v h hv => ?_, fun i h hi => ⟨step_readObuf hb h hi, result_getElem?⟩,
    fun i h => step_readIbuf hb h⟩⟩
  · rw [step_readStatus h, statusCode_of_code hv]
  · rw [step_readReg hb h, regValue, errCode_of_code hv]

/-! ## Which step can write what (R11, R13, R15, R17, R18, R25) -/

/-- An item makes DECODE fail only while DECODE runs. -/
theorem advance_doneFail {s : State} (h : (advance s).status = .doneFail) :
    s.status = .doneFail ∨ s.status = .busy .decode := by
  rcases advance_cases s with ⟨-, ha⟩ | ⟨-, ha⟩ | ⟨hs, ha⟩ | ⟨hs, -⟩
  · exact .inl (ha ▸ h)
  · simp [ha] at h
  · rcases encoded_status s with he | he <;> simp [ha, he, hs] at h
  · exact .inr hs

/-- Settles O57: no start and no completion but a DECODE's answers DONE_FAIL; the host's other moves leave `STATUS`. -/
theorem onlyDecodeFails : Obligations.OnlyDecodeFails := by
  intro s t hstep ht
  cases moved_of_step hstep with
  | wrIbuf | wrIlen | wrSarg | read => exact .inl ht
  | size | encode | decode | rst => simp at ht
  | @core rest => exact advance_doneFail (s := { s with host := rest }) ht

/-- Settles O58: of the moves, only the three writes and `RST` touch an operand. -/
theorem onlyHostWritesOperands : Obligations.OnlyHostWritesOperands := by
  intro s t hstep
  cases moved_of_step hstep with
  | wrIbuf move => exact ⟨rfl, fun h _ _ _ => absurd move (h _ _ _)⟩
  | wrIlen move => exact ⟨rfl, fun _ h _ _ => absurd move (h _ _)⟩
  | wrSarg move => exact ⟨rfl, fun _ _ h _ => absurd move (h _ _)⟩
  | rst move => exact ⟨rfl, fun _ _ _ h => absurd move (h _)⟩
  | size | encode | decode | read => exact ⟨rfl, fun _ _ _ _ => ⟨rfl, rfl, rfl, fun _ => rfl⟩⟩
  | @core rest =>
    have ho := (advance_frame { s with host := rest }).operands
    exact ⟨ho.1, fun _ _ _ _ => ho⟩

/-- Settles O59: the core's turn is the only move that can write `SRES`, and only when SIZE runs; the other moves are not
made while BUSY or leave `OLEN` and `OBUF`. -/
theorem onlySizeWritesSres : Obligations.OnlySizeWritesSres := by
  intro s t hstep hrst
  have not_ready (ready : isBusy s = false) (hs : s.status = .busy .size) : False := isBusy_false_iff.1 ready _ hs
  cases moved_of_step hstep with
  | wrIbuf | wrIlen | wrSarg | size | read => exact ⟨fun h => absurd rfl h, fun _ => ⟨rfl, fun _ => rfl⟩⟩
  | encode ready | decode ready => exact ⟨fun h => absurd rfl h, fun hs => (not_ready ready hs).elim⟩
  | rst move => exact absurd move (hrst _)
  | @core rest =>
    refine ⟨fun h => by_contra fun hs => h (advance_sres (s := { s with host := rest }) hs), fun hs => ?_⟩
    rw [advance_size (s := { s with host := rest }) hs]
    exact ⟨rfl, fun _ => rfl⟩

end Sys2Proof.Machine

/-! ## Noninterference (R24): two runs of an operation on one operand, in lockstep

The runs need not be sound, and the two cores' parameters, other bytes and counters may differ: the relation `SameRun`
speaks of `IBUF[0..ILEN)` and `OBUF[0..wp)` only. -/

namespace Sys2Proof.Machine

/-! ### Runs side by side -/

/-- A relation that two steps keep holds after any number of them. -/
theorem steps_related {R : State → State → Prop}
    (hR : ∀ s s' t t', R s s' → step s = .next t → step s' = .next t' → R t t') {k : Nat} {s s' u u' : State}
    (h : R s s') (hu : steps k s = .next u) (hu' : steps k s' = .next u') : R u u' := by
  induction k generalizing s s' with
  | zero =>
    simp only [steps, next_eq_next] at hu hu'
    exact hu ▸ hu' ▸ h
  | succ k ih =>
    obtain ⟨t, ht, hu⟩ := steps_succ_next.1 hu
    obtain ⟨t', ht', hu'⟩ := steps_succ_next.1 hu'
    exact ih (hR _ _ _ _ h ht ht') hu hu'

/-- With no move of the host left, every step is the core's turn and leaves it so. -/
theorem step_silent {s t : State} (hh : s.host = []) (h : step s = .next t) : t = advance s ∧ t.host = [] := by
  rw [step_noMove hh] at h
  have ht := coreStep_eq_advance h
  exact ⟨ht, by rw [ht, (advance_frame s).host, hh]⟩

/-- What an operation leaves for the host to read, but `SRES`. -/
structure SameOutcome (s s' : State) : Prop where
  status : s.status = s'.status
  err : s.err = s'.err
  epos : s.epos = s'.epos
  olen : s.olen = s'.olen
  result : result s = result s'

/-- What the runs of ENCODE and of DECODE share: the operand, the bytes written so far, and that nothing is delivered. -/
structure SameRun (s s' : State) : Prop where
  ilen : s.ilen = s'.ilen
  input : ∀ a, a < s.ilen → readIbuf s a = readIbuf s' a
  status : s.status = s'.status
  err : s.err = s'.err
  epos : s.epos = s'.epos
  olen : s.olen = 0
  olen' : s'.olen = 0
  wp : s.wp = s'.wp
  output : ∀ a, a < s.wp → ∃ b, s.obuf.get? a = some b ∧ s'.obuf.get? a = some b

theorem SameRun.sameOutcome {s s' : State} (h : SameRun s s') : SameOutcome s s' :=
  ⟨h.status, h.err, h.epos, h.olen.trans h.olen'.symm, by rw [result, result, h.olen, h.olen']; rfl⟩

/-! ### The shared operations -/

theorem SameRun.same_readSlice {s s' : State} (h : SameRun s s') {start cnt : Nat}
    (hc : start + cnt ≤ s.ilen ∨ cnt = 0) :
    readSlice s start cnt = readSlice s' start cnt := by
  refine List.map_congr_left fun a ha => h.input a ?_
  have := List.mem_range'_1.1 ha
  omega

theorem SameRun.after_append {s s' : State} (h : SameRun s s') (bs : List Byte) :
    SameRun (appended bs s) (appended bs s') :=
  { h with
    wp := by simp [h.wp]
    output := fun a ha => by
      simp only [appended_obuf, ← h.wp]
      rcases Nat.lt_or_ge a s.wp with hlt | hge
      · simpa only [get?_writeList_outside _ _ (.inl hlt)] using h.output a hlt
      · obtain ⟨j, rfl⟩ := Nat.exists_eq_add_of_le hge
        have hj : j < bs.length := by simpa using ha
        exact ⟨bs[j], get?_writeList_inside _ _ _ hj, get?_writeList_inside _ _ _ hj⟩ }

theorem SameRun.after_deliver {s s' : State} (h : SameRun s s') : SameOutcome (deliver s) (deliver s') where
  status := rfl
  err := h.err
  epos := h.epos
  olen := h.wp
  result := by
    simp only [result, deliver_olen, ← h.wp]
    refine List.map_congr_left fun a ha => ?_
    have ha : a < s.wp := by simpa using ha
    obtain ⟨b, hb, hb'⟩ := h.output a ha
    simp [readObuf, get?_keepBelow, ha, ← h.wp, hb, hb']

theorem sameOutcome_raiseFailure (cause : Cause) (pos : Nat) (s s' : State) :
    SameOutcome (raiseFailure cause pos s) (raiseFailure cause pos s') :=
  ⟨rfl, rfl, rfl, rfl, rfl⟩

/-! ### ENCODE -/

/-- Two runs of ENCODE whose framers stand at the same place. -/
structure SameEncode (s s' : State) : Prop extends SameRun s s' where
  running : s.status = .busy .encode
  fp : s.fp = s'.fp
  fdone : s.fdone = s'.fdone

theorem SameRun.same_zeroFrom {s s' : State} (h : SameRun s s') {k i : Nat} (hi : i + k ≤ s.ilen ∨ k = 0) :
    zeroFrom s k i = zeroFrom s' k i := by
  induction k generalizing i with
  | zero => rfl
  | succ k ih => simp only [zeroFrom, h.input i (by omega), ih (i := i + 1) (by omega)]

theorem SameEncode.same_runEnd {s s' : State} (h : SameEncode s s') : runEnd s = runEnd s' := by
  rw [runEnd, runEnd, h.toSameRun.same_zeroFrom (by omega), h.fp, h.ilen]

/-- The block framed is one of the operand. -/
theorem frameNext_inside (s : State) :
    (frameNext s).1.start + (frameNext s).1.cnt ≤ s.ilen ∨ (frameNext s).1.cnt = 0 := by
  obtain ⟨-, hle, -, -⟩ := zeroFrom_spec s (s.ilen - s.fp) s.fp
  change runEnd s ≤ _ at hle
  rcases frameNext_cases s with ⟨hc, hn⟩ | ⟨hc, he, hn⟩ | ⟨hc, he, hn⟩ <;> simp only [hn] <;> omega

theorem SameEncode.after_frameNext {s s' : State} (h : SameEncode s s') :
    (frameNext s).1 = (frameNext s').1 ∧ SameEncode (frameNext s).2 (frameNext s').2 := by
  have he := h.same_runEnd
  unfold frameNext
  rw [← he, ← h.fp, ← h.ilen]
  split_ifs
  · exact ⟨rfl, { h with ilen := rfl, fp := rfl }⟩
  · exact ⟨rfl, { h with ilen := rfl, fp := rfl, fdone := rfl }⟩
  · exact ⟨rfl, { h with ilen := rfl, fp := rfl }⟩

theorem SameEncode.same_blockBytes {s s' : State} (h : SameEncode s s') :
    blockBytes (frameNext s).2 (frameNext s).1 = blockBytes (frameNext s').2 (frameNext s').1 := by
  obtain ⟨hb, hn⟩ := h.after_frameNext
  rw [blockBytes, blockBytes, ← hb]
  refine congrArg _ (hn.toSameRun.same_readSlice ?_)
  rw [frameNext_snd s]
  exact frameNext_inside s

/-- A turn of both runs: the same block written, or the same frame delivered. -/
theorem SameEncode.after_turn {s s' : State} (h : SameEncode s s') :
    SameEncode (encoded s) (encoded s') ∨
      isBusy (encoded s) = false ∧ SameOutcome (encoded s) (encoded s') := by
  unfold encoded
  rw [← h.fdone]
  split_ifs
  · exact .inr ⟨rfl, (h.toSameRun.after_append _).after_deliver⟩
  · have hn := h.after_frameNext.2
    rw [← h.same_blockBytes]
    exact .inl { hn.toSameRun.after_append _ with running := hn.running, fp := hn.fp, fdone := hn.fdone }

/-! ### DECODE -/

/-- Two runs of DECODE whose parsers stand at the same place, inside the operand. -/
structure SameDecode (s s' : State) : Prop extends SameRun s s' where
  running : s.status = .busy .decode
  rp : s.rp = s'.rp
  pend : s.pend = s'.pend
  rp_le : s.rp ≤ s.ilen

theorem SameDecode.after_accept {s s' : State} (h : SameDecode s s') {n : Nat} (hn : s.rp + n ≤ s.ilen) (h1 : 1 ≤ n) :
    SameDecode (accepted (blockAtCursor n s) s) (accepted (blockAtCursor n s') s') := by
  have hb : blockAtCursor n s' = blockAtCursor n s := by simp [blockAtCursor, h.rp]
  have hslice : readSlice s (s.rp + 1) (n - 1) = readSlice s' (s.rp + 1) (n - 1) :=
    h.toSameRun.same_readSlice (.inl (by omega))
  have hu : unstuffBytes s' (blockAtCursor n s) = unstuffBytes s (blockAtCursor n s) := by
    rw [unstuffBytes, unstuffBytes, ← h.pend]
    exact congrArg _ hslice.symm
  rw [hb, accepted, accepted, hu]
  exact { h.toSameRun.after_append _ with
    running := h.running
    rp := congrArg (· + n) h.rp
    pend := rfl
    rp_le := hn }

/-- A turn of both runs: the same item at the cursor, with the same outcome. -/
theorem SameDecode.after_turn {s s' : State} (h : SameDecode s s') :
    SameDecode (parsed s) (parsed s') ∨ isBusy (parsed s) = false ∧ SameOutcome (parsed s) (parsed s') := by
  unfold parsed
  rw [← h.rp, ← h.ilen]
  by_cases hr : s.rp = s.ilen
  · rw [if_pos hr, if_pos hr]
    exact .inr ⟨rfl, h.toSameRun.after_deliver⟩
  have hlt : s.rp < s.ilen := lt_of_le_of_ne h.rp_le hr
  have hbyte : headerByte s' = headerByte s := by rw [headerByte, headerByte, ← h.rp, h.input _ hlt]
  rw [hbyte, if_neg hr, if_neg hr]
  split_ifs with h0 hl hc
  · exact .inr ⟨rfl, h.toSameRun.after_deliver⟩
  · exact .inr ⟨rfl, sameOutcome_raiseFailure _ _ _ _⟩
  · exact .inr ⟨rfl, sameOutcome_raiseFailure _ _ _ _⟩
  · obtain ⟨hn, hin⟩ := block_inside h0 hc
    exact .inl (h.after_accept (hin hlt) hn)

/-! ### Both, from the start to the end -/

/-- Two cores in lockstep, with no move of the host left: running the same operation at the same place, or done alike. -/
structure Lockstep (s s' : State) : Prop where
  host : s.host = []
  host' : s'.host = []
  together : SameEncode s s' ∨ SameDecode s s' ∨ isBusy s = false ∧ SameOutcome s s'

theorem Lockstep.after_step {s s' t t' : State} (h : Lockstep s s') (ht : step s = .next t) (ht' : step s' = .next t') :
    Lockstep t t' := by
  obtain ⟨rfl, hh⟩ := step_silent h.host ht
  obtain ⟨rfl, hh'⟩ := step_silent h.host' ht'
  refine ⟨hh, hh', ?_⟩
  rcases h.together with he | hd | ⟨hb, ho⟩
  · rw [advance_encode he.running, advance_encode (he.status ▸ he.running)]
    exact he.after_turn.imp_right .inr
  · rw [advance_decode hd.running, advance_decode (hd.status ▸ hd.running)]
    exact .inr hd.after_turn
  · rw [advance_of_ready hb, advance_of_ready (isBusy_congr ho.status ▸ hb)]
    exact .inr (.inr ⟨hb, ho⟩)

theorem Lockstep.sameOutcome {s s' : State} (h : Lockstep s s') : SameOutcome s s' := by
  rcases h.together with he | hd | ⟨-, ho⟩
  · exact he.toSameRun.sameOutcome
  · exact hd.toSameRun.sameOutcome
  · exact ho

/-- The start clears every register on which the run could depend (R19, R46). -/
theorem lockstep_startEncode {s s' : State} (hh : s.host = []) (hh' : s'.host = []) (hl : s.ilen = s'.ilen)
    (hi : ∀ a, a < s.ilen → readIbuf s a = readIbuf s' a) : Lockstep (startEncode s) (startEncode s') :=
  ⟨hh, hh', .inl ⟨⟨hl, hi, rfl, rfl, rfl, rfl, rfl, rfl, nofun⟩, rfl, rfl, by simp [startEncode, hl]⟩⟩

theorem lockstep_startDecode {s s' : State} (hh : s.host = []) (hh' : s'.host = []) (hl : s.ilen = s'.ilen)
    (hi : ∀ a, a < s.ilen → readIbuf s a = readIbuf s' a) : Lockstep (startDecode s) (startDecode s') :=
  ⟨hh, hh', .inr (.inl ⟨⟨hl, hi, rfl, rfl, rfl, rfl, rfl, rfl, nofun⟩, rfl, rfl, rfl, Nat.zero_le _⟩)⟩

/-- R130: with no move of the host and no operation running, the core holds. -/
theorem steps_held {s : State} (hh : s.host = []) (hb : isBusy s = false) (k : Nat) : steps k s = .next s := by
  induction k with
  | zero => rfl
  | succ k ih => exact steps_succ_next.2 ⟨s, (step_noMove hh).trans (coreStep_next.2 (.inl ⟨hb, rfl⟩)), ih⟩

/-- SIZE completes in one step (R66). -/
theorem steps_size {s u : State} {k : Nat} (hh : s.host = []) (hk : 1 ≤ k)
    (hu : steps k (startFlags .size s) = .next u) : u = completeSize (startFlags .size s) := by
  obtain ⟨k, rfl⟩ := Nat.exists_eq_add_of_le' hk
  obtain ⟨t, ht, hu⟩ := steps_succ_next.1 hu
  obtain ⟨rfl, hth⟩ := step_silent (s := startFlags .size s) hh ht
  rw [advance_size rfl] at hth hu
  exact next_eq_next.1 ((steps_held hth rfl k).symm.trans hu)

/-- Settles O60: ENCODE and DECODE start in lockstep and stay so; SIZE writes a function of `SARG`. -/
theorem outcomeDependsOnlyOnOperand : Obligations.OutcomeDependsOnlyOnOperand := by
  intro i s s' t t' u u' k hh hh' ht ht' hk hu hu'
  refine ⟨?_, ?_⟩
  · rintro rfl hs
    obtain ⟨-, rfl⟩ := execSize_next.1 ht
    obtain ⟨-, rfl⟩ := execSize_next.1 ht'
    rw [steps_size hh (by omega) hu, steps_size hh' (by omega) hu']
    exact ⟨rfl, rfl, rfl, congrArg esize hs⟩
  · intro hi hl hin
    have hlock : Lockstep t t' := by
      rcases hi with rfl | rfl
      · obtain ⟨-, -, rfl⟩ := execEncode_next.1 ht
        obtain ⟨-, -, rfl⟩ := execEncode_next.1 ht'
        exact lockstep_startEncode hh hh' hl hin
      · obtain ⟨-, -, rfl⟩ := execDecode_next.1 ht
        obtain ⟨-, -, rfl⟩ := execDecode_next.1 ht'
        exact lockstep_startDecode hh hh' hl hin
    have hend : Lockstep u u' := steps_related (fun _ _ _ _ => Lockstep.after_step) hlock hu hu'
    obtain ⟨hstatus, herr, hepos, holen, hresult⟩ := hend.sameOutcome
    exact ⟨hstatus, herr, hepos, holen, hresult⟩

end Sys2Proof.Machine

/-! ## The buffers' bounds (R34): the host's accesses outside are refused, the core has none -/

namespace Sys2Proof.Machine

/-! ### The host -/

/-- Settles O13: outside BUSY the answer of both moves is the one their bound decides. -/
theorem hostIndexOutsideRefused : Obligations.HostIndexOutsideRefused := by
  intro s i rest hb hi
  refine ⟨fun b h => ?_, fun h => ?_⟩ <;> rw [step_move h, hostTurn, unlessBusy_of_ready hb]
  · exact if_neg (Nat.not_lt.2 hi)
  · exact if_neg (Nat.not_lt.2 hi)

/-! ### Which step can be a fault -/

theorem ifReady_fault {s : State} {k : Out} {r : Fault} :
    ifReady s k = .fault r ↔ isBusy s = false ∧ k = .fault r := by
  unfold ifReady
  split <;> simp_all

theorem unlessBusy_fault {s : State} {k : Out} {r : Fault} :
    unlessBusy s k = .fault r ↔ isBusy s = false ∧ k = .fault r := by
  unfold unlessBusy
  split <;> simp_all

/-- A bound on what the host may do decides between a next state and a refusal. -/
theorem guarded_ne_fault (p : Prop) [Decidable p] (t : State) (why : Refusal) (r : Fault) :
    (if p then .next t else .refused why : Out) ≠ .fault r := by
  split <;> nofun

theorem command_ne_fault (op : BitVec 2) (s : State) (r : Fault) : exec (decodeCmd op) s ≠ .fault r := by
  intro h
  rcases decodeCmd_cases op with hd | hd | hd | hd <;> rw [hd] at h
  · exact nomatch (ifReady_fault.1 h).2
  · exact guarded_ne_fault _ _ _ _ (ifReady_fault.1 h).2
  · exact guarded_ne_fault _ _ _ _ (ifReady_fault.1 h).2
  · exact nomatch h

theorem hostRead_ne_fault (reg : ReadReg) (s : State) (r : Fault) : hostRead reg s ≠ .fault r := by
  cases reg <;> simp [hostRead, unlessBusy_fault]

theorem hostReadIbuf_ne_fault (i : Nat) (s : State) (r : Fault) : hostReadIbuf i s ≠ .fault r := by
  unfold hostReadIbuf
  split
  · exact guarded_ne_fault _ _ _ _
  · nofun

/-- Only the core's turn can be a fault: the host's moves are refused where they have no meaning. -/
theorem hostTurn_fault {m : HostMove} {rest : List HostMove} {s : State} {r : Fault}
    (h : hostTurn m rest s = .fault r) : ∃ moves, coreStep { s with host := moves } = .fault r := by
  cases m with
  | wrIbuf | wrIlen | wrSarg | rdObuf => exact absurd (unlessBusy_fault.1 h).2 (guarded_ne_fault _ _ _ _)
  | cmd op => exact absurd h (command_ne_fault op _ r)
  | rd reg => exact absurd h (hostRead_ne_fault reg _ r)
  | rdIbuf i => exact absurd (unlessBusy_fault.1 h).2 (hostReadIbuf_ne_fault i _ r)
  | wait =>
    rw [hostTurn] at h
    split at h
    · exact ⟨s.host, h⟩
    · exact absurd h (hostRead_ne_fault _ _ r)
  | pass => exact ⟨rest, h⟩
  | rst => exact nomatch h

theorem step_fault {s : State} {r : Fault} (h : step s = .fault r) :
    ∃ moves, coreStep { s with host := moves } = .fault r := by
  rcases hh : s.host with _ | ⟨m, rest⟩
  · exact ⟨s.host, step_noMove hh ▸ h⟩
  · exact hostTurn_fault (step_move hh ▸ h)

/-! ### The core's turn always answers

`coreStep_eq_advance` says which state it answers, so only that the bounds hold is shown here. -/

/-- R84: what a running ENCODE still has to write has room. -/
theorem EncodeSound.encodeStep_answers {s : State} (h : EncodeSound s) : ∃ t, encodeStep s = .next t := by
  have hfmax : s.ilen ≤ fmax s.cfg := by have := h.ilen_le; have := le_fmax s.cfg; omega
  cases hd : s.fdone with
  | true =>
    have hroom := h.room
    rw [if_pos hd] at hroom
    exact ⟨_, encodeStep_next.2 ⟨hfmax, .inl ⟨hd, hroom, rfl⟩⟩⟩
  | false =>
    have hroom := Nat.le_of_add_right_le (frameNext_room h hd).2
    refine ⟨_, encodeStep_next.2 ⟨hfmax, .inr ⟨hd, ?_, rfl⟩⟩⟩
    rw [blockBytes_length, frameNext_snd s]
    exact hroom

/-- R96, R109: a block that is not cut short lies in the operand, so its bytes fit: no more is written than is read. -/
theorem DecodeSound.lengthByte_answers {s : State} (h : DecodeSound s) (hr : s.rp < s.ilen) (n : Nat) :
    ∃ t, lengthByte n s = .next t := by
  rcases Nat.lt_or_ge (s.ilen - (s.rp + 1)) (dataCount n) with hc | hc
  · exact ⟨_, lengthByte_next.2 (.inl ⟨hc, rfl⟩)⟩
  · have hl := h.ilen_le
    have hwp := h.wp_le
    have hlen : (unstuffBytes s (blockAtCursor n s)).length = s.pend.toNat + dataCount n := unstuffBytes_length s _
    exact ⟨_, lengthByte_next.2 (.inr ⟨hc, by omega, by omega, rfl⟩)⟩

/-- R50: every byte at the cursor is an item that a running DECODE has a meaning for. -/
theorem DecodeSound.parseNext_answers {s : State} (h : DecodeSound s) (hs : s.status = .busy .decode) :
    ∃ t, parseNext s = .next t := by
  by_cases hr : s.rp = s.ilen
  · exact ⟨_, parseNext_next.2 (.inl ⟨hr, rfl⟩)⟩
  have hlt : s.rp < s.ilen := lt_of_le_of_ne h.rp_le hr
  suffices item : ∃ t, exec (fetchItem s) s = .next t from
    item.imp fun t ht => parseNext_next.2 (.inr ⟨hr, Nat.lt_of_lt_of_le hlt h.ilen_le, ht⟩)
  rcases fetchItem_cases s with ⟨-, hl, hi⟩ | ⟨-, hl, hi⟩ | ⟨-, ⟨hi, -⟩ | hi⟩ <;> rw [hi]
  · exact ⟨_, execLenTerm_next.2 ⟨hs, hl, rfl⟩⟩
  · exact ⟨_, execLenZeroIllegal_next.2 ⟨hs, lt_of_le_of_ne hlt hl, rfl⟩⟩
  · exact (h.lengthByte_answers hlt _).imp fun t ht => execLenFull_next.2 ⟨hs, hlt, ht⟩
  · exact (h.lengthByte_answers hlt _).imp fun t ht => execLenBlk_next.2 ⟨hs, hlt, ht⟩

theorem Sound.coreStep_answers {s : State} (h : Sound s) : ∃ t, coreStep s = .next t := by
  rcases advance_cases s with ⟨hb, -⟩ | ⟨hs, -⟩ | ⟨hs, -⟩ | ⟨hs, -⟩
  · exact ⟨_, coreStep_next.2 (.inl ⟨hb, rfl⟩)⟩
  · exact ⟨_, coreStep_next.2 (.inr (.inl ⟨hs, rfl⟩))⟩
  · exact (h.running_encode hs).1.encodeStep_answers.imp fun t ht => coreStep_next.2 (.inr (.inr (.inl ⟨hs, ht⟩)))
  · exact ((h.running_decode hs).1.parseNext_answers hs).imp fun t ht =>
      coreStep_next.2 (.inr (.inr (.inr ⟨hs, ht⟩)))

/-- Settles O55: only the core's turn could be a fault, and from a sound state it answers a next state. -/
theorem coreStaysInsideBuffers : Obligations.CoreStaysInsideBuffers := by
  refine fun s h => ⟨fun r hstep => ?_, h.coreStep_answers⟩
  obtain ⟨moves, hfault⟩ := step_fault hstep
  obtain ⟨t, ht⟩ := (h.of_host moves s.got).coreStep_answers
  exact nomatch hfault.symm.trans ht

end Sys2Proof.Machine

/-! ## The encodings (R45, R50, R51, R56, R57): the words and the decoder, the frame and the parser -/

namespace Sys2Proof.Machine

/-! ### The decoder and the encoder -/

theorem encode_decodeCmd : ∀ op : BitVec 2, encode (decodeCmd op) = .cmd op := by decide

theorem decodeCmd_wf (op : BitVec 2) : (decodeCmd op).wf = true := by
  rcases decodeCmd_cases op with hd | hd | hd | hd <;> rw [hd] <;> rfl

/-- R50: the four classes of a byte at a header position. -/
theorem decodeLen_cases (b : Byte) (last : Bool) :
    (b.toNat = 0 ∧ last = true ∧ decodeLen b last = .lenTerm) ∨
    (b.toNat = 0 ∧ last = false ∧ decodeLen b last = .lenZeroIllegal) ∨
    (b.toNat = 255 ∧ decodeLen b last = .lenFull) ∨
    (1 ≤ b.toNat ∧ b.toNat ≤ 254 ∧ decodeLen b last = .lenBlk b) := by
  by_cases h0 : b = 0#8
  · subst h0
    cases last
    · exact .inr (.inl ⟨rfl, rfl, rfl⟩)
    · exact .inl ⟨rfl, rfl, rfl⟩
  by_cases hf : b = 255#8
  · subst hf
    exact .inr (.inr (.inl ⟨rfl, rfl⟩))
  · have hn0 : b.toNat ≠ 0 := BitVec.toNat_ne.1 h0
    have hn255 : b.toNat ≠ 255 := fun h => hf (BitVec.eq_of_toNat_eq h)
    have hlt := b.isLt
    exact .inr (.inr (.inr ⟨by omega, by omega, by simp [decodeLen, h0, hf]⟩))

theorem lenBlk_wf_iff {n : Byte} : (Instr.lenBlk n).wf = true ↔ 1 ≤ n.toNat ∧ n.toNat ≤ 254 := by
  simp [Instr.wf]

theorem decodeLen_wf (b : Byte) (last : Bool) : (decodeLen b last).wf = true := by
  rcases decodeLen_cases b last with ⟨-, -, h⟩ | ⟨-, -, h⟩ | ⟨-, h⟩ | ⟨h1, h2, h⟩ <;> rw [h]
  · rfl
  · rfl
  · rfl
  · exact lenBlk_wf_iff.2 ⟨h1, h2⟩

theorem codeBits_encode_decodeLen (b : Byte) (last : Bool) : codeBits (encode (decodeLen b last)) = b.toNat := by
  rcases decodeLen_cases b last with ⟨hb, -, h⟩ | ⟨hb, -, h⟩ | ⟨hb, h⟩ | ⟨-, -, h⟩ <;> rw [h]
  · exact hb.symm
  · exact hb.symm
  · exact hb.symm
  · rfl

/-- The position condition is part of the word exactly for a zero byte (R50). -/
theorem encode_decodeLen_zero (last : Bool) : encode (decodeLen 0#8 last) = .len 0#8 last := by
  cases last <;> rfl

theorem decode_encode {i : Instr} (h : i.wf = true) : decodeCode (encode i) = i := by
  cases i with
  | size | encode | decode | cmdReserved | lenTerm | lenZeroIllegal | lenFull => rfl
  | lenBlk n =>
    have hn := lenBlk_wf_iff.1 h
    rcases decodeLen_cases n false with ⟨h0, -, -⟩ | ⟨h0, -, -⟩ | ⟨hf, -⟩ | ⟨-, -, hd⟩
    · omega
    · omega
    · omega
    · exact hd

/-- Settles O5: the way back is `decode_encode`; the way there is by the word's format. -/
theorem encodingRoundTrips : Obligations.EncodingRoundTrips := by
  refine ⟨fun i => decode_encode, fun w => ?_⟩
  cases w with
  | cmd op => exact ⟨decodeCmd_wf op, congrArg codeBits (encode_decodeCmd op), fun _ => encode_decodeCmd op⟩
  | len b last =>
    refine ⟨decodeLen_wf b last, codeBits_encode_decodeLen b last, fun h => ?_⟩
    rw [h b last rfl]
    exact encode_decodeLen_zero last

/-- Settles O4, row by row. -/
theorem wordsOfTheOpcodeTable : Obligations.WordsOfTheOpcodeTable :=
  ⟨rfl, rfl, rfl, rfl, rfl, rfl, rfl, rfl, rfl⟩

/-- Settles O6: in each of the four classes the other three conditions are false. -/
theorem headerByteClasses : Obligations.HeaderByteClasses := by
  intro b last
  rcases decodeLen_cases b last with ⟨hb, hl, h⟩ | ⟨hb, hl, h⟩ | ⟨hb, h⟩ | ⟨h1, h2, h⟩ <;> rw [h]
  · simp [hb, hl]
  · simp [hb, hl]
  · simp [hb]
  · have h0 : b.toNat ≠ 0 := by omega
    have h255 : b.toNat ≠ 255 := by omega
    simp [h0, h255, h1, h2]

/-! ### The step runs the item, the starts and the reserved command -/

theorem coreStep_eq_exec_fetchItem {s : State} (hs : s.status = .busy .decode) (hr : s.rp < s.ilen)
    (hf : s.rp < fmax s.cfg) : coreStep s = exec (fetchItem s) s := by
  simp [coreStep, parseNext, hs, Nat.ne_of_lt hr, hf]

/-- Settles O8: each of the host's three ways of letting the core go on is the core's turn. -/
theorem stepRunsDecodedItem : Obligations.StepRunsDecodedItem := by
  rintro s hs hr hf i rfl
  have turn : coreStep s = exec (fetchItem s) s := coreStep_eq_exec_fetchItem hs hr hf
  refine ⟨decodeLen_wf _ _, fun h => ?_, fun rest h => ?_, fun rest h => ?_⟩
  · exact (step_noMove h).trans turn
  · exact (step_wait_busy h (by simp [isBusy, hs])).trans turn
  · exact (step_move h).trans (coreStep_eq_exec_fetchItem (s := { s with host := rest }) hs hr hf)

/-- Settles O15: `exec` refuses the row whatever the state is, and the host's write runs it. -/
theorem reservedCommandRefused : Obligations.ReservedCommandRefused :=
  ⟨fun _ => rfl, fun _ _ h => step_move h⟩

/-- Settles O21: the state named is `startEncode`. -/
theorem encodeStarts : Obligations.EncodeStarts := fun _ hb hl => execEncode_next.2 ⟨hb, hl, rfl⟩

/-- Settles O34: the state named is `startDecode`. -/
theorem decodeStarts : Obligations.DecodeStarts := fun _ hb hl => execDecode_next.2 ⟨hb, hl, rfl⟩

/-! ### The blocks of a frame -/

/-- A length byte keeps its value in the frame (R48). -/
theorem toNat_lengthByte {n : Nat} (h : n ≤ 255) : (BitVec.ofNat 8 n).toNat = n :=
  Nat.mod_eq_of_lt (Nat.lt_succ_of_le h)

/-- R51, with the data count as the length byte's own equation. -/
theorem block_wf_iff {b : Block} :
    b.wf = true ↔ b.n = b.data.length + 1 ∧ b.n ≤ 255 ∧ ∀ x ∈ b.data, x ≠ 0#8 := by
  simp only [Block.wf, Bool.and_eq_true, decide_eq_true_eq, List.all_eq_true]
  constructor
  · rintro ⟨⟨⟨h1, h255⟩, hlen⟩, hz⟩
    exact ⟨by omega, h255, hz⟩
  · rintro ⟨hn, h255, hz⟩
    exact ⟨⟨⟨by omega, h255⟩, by omega⟩, hz⟩

/-- R8: no run holds a zero. -/
theorem split0_run_zero_free (p : List Byte) : ∀ r ∈ split0 p, ∀ x ∈ r, x ≠ 0#8 := by
  induction p with
  | nil => simp [split0]
  | cons b p ih =>
    by_cases hb : b = 0#8
    · subst hb
      rw [split0_zero]
      simpa using ih
    · obtain ⟨r, rs, hs⟩ := List.exists_cons_of_ne_nil (split0_ne_nil p)
      rw [hs, List.forall_mem_cons] at ih
      obtain ⟨hr, hrs⟩ := ih
      rw [split0_nonzero hb hs]
      exact List.forall_mem_cons.2 ⟨List.forall_mem_cons.2 ⟨hb, hr⟩, hrs⟩

/-- R71: the chunks of a zero-free run are well-formed, the full ones and the final one. -/
theorem chunk_wf {r : List Byte} (hz : ∀ x ∈ r, x ≠ 0#8) : ∀ b ∈ chunk r, b.wf = true := by
  induction hl : r.length using Nat.strong_induction_on generalizing r with
  | _ l ih =>
    subst hl
    rcases Nat.lt_or_ge 254 r.length with hgt | hle
    · rw [chunk_of_gt hgt]
      have hfull : (⟨255, r.take 254⟩ : Block).wf = true :=
        block_wf_iff.2 ⟨by simp; omega, Nat.le_refl _, fun x hx => hz x (List.mem_of_mem_take hx)⟩
      have hrest := ih (r.drop 254).length (by simp; omega) (fun x hx => hz x (List.mem_of_mem_drop hx)) rfl
      exact List.forall_mem_cons.2 ⟨hfull, hrest⟩
    · rw [chunk_of_le hle]
      exact List.forall_mem_singleton.2 (block_wf_iff.2 ⟨rfl, Nat.succ_le_succ hle, hz⟩)

/-- R82: the framer's blocks are well-formed. -/
theorem blocks_wf (p : List Byte) : ∀ b ∈ blocks p, b.wf = true := by
  intro b hb
  by_cases hp : p = []
  · simp [hp] at hb
  · rw [blocks_of_ne_nil hp] at hb
    obtain ⟨r, hr, hb⟩ := List.mem_flatMap.1 hb
    exact chunk_wf (split0_run_zero_free p r hr) b hb

/-- Well-formed blocks are serialised without a zero byte. -/
theorem ser_zero_free {bs : List Block} (h : ∀ b ∈ bs, b.wf = true) : ∀ x ∈ ser bs, x ≠ 0#8 := by
  induction bs with
  | nil => simp
  | cons b bs ih =>
    obtain ⟨hb, hbs⟩ := List.forall_mem_cons.1 h
    obtain ⟨hn, h255, hz⟩ := block_wf_iff.1 hb
    have hlen : BitVec.ofNat 8 b.n ≠ 0#8 := by
      rw [BitVec.toNat_ne, toNat_lengthByte h255, hn]
      exact Nat.succ_ne_zero _
    rw [ser_cons, List.forall_mem_cons, List.forall_mem_append]
    exact ⟨hlen, hz, ih hbs⟩

/-- Settles O28: the terminator is the only byte outside the serialised blocks. -/
theorem frameZeroOnlyAtEnd : Obligations.FrameZeroOnlyAtEnd := by
  intro p
  rw [enc, List.dropLast_concat, List.getLast?_concat]
  exact ⟨ser_zero_free (blocks_wf p), rfl⟩

/-! ### The parser on serialised blocks

Only the length bytes have to be right: the parser does not look at the data (R98). -/

theorem length_le_length_ser (bs : List Block) : bs.length ≤ (ser bs).length := by
  induction bs with
  | nil => simp
  | cons b bs ih =>
    simp only [ser_cons, List.length_cons, List.length_append]
    omega

/-- R94: a zero at the last index ends the parse. -/
theorem parseGo_terminator (pre : List Byte) (k : Nat) (acc : List Block) :
    parseGo (pre ++ [0#8]) (k + 1) pre.length acc = .ok acc := by
  simp [parseGo_succ]

/-- R97: a block at the cursor is accepted, and the cursor moves to the byte after it. -/
theorem parseGo_block {b : Block} (hn : b.n = b.data.length + 1) (h255 : b.n ≤ 255) (pre rest : List Byte) (k : Nat)
    (acc : List Block) :
    parseGo (pre ++ BitVec.ofNat 8 b.n :: (b.data ++ rest)) (k + 1) pre.length acc =
      parseGo (pre ++ BitVec.ofNat 8 b.n :: (b.data ++ rest)) k (pre.length + b.n) (acc ++ [b]) := by
  have hbyte : ((pre ++ BitVec.ofNat 8 b.n :: (b.data ++ rest)).getD pre.length 0#8).toNat = b.n := by
    simp [-BitVec.toNat_ofNat, toNat_lengthByte h255]
  have hlen : (pre ++ BitVec.ofNat 8 b.n :: (b.data ++ rest)).length = pre.length + (b.n + rest.length) := by
    simp
    omega
  have hdata : ((pre ++ BitVec.ofNat 8 b.n :: (b.data ++ rest)).drop (pre.length + 1)).take (b.n - 1) = b.data := by
    simp [hn, List.drop_length_add_append]
  rw [parseGo_succ, hbyte, hlen, hdata, if_neg (by omega), if_neg (by omega), if_neg (by omega), if_neg (by omega)]

theorem parseGo_ser {bs : List Block} (h : ∀ b ∈ bs, b.n = b.data.length + 1 ∧ b.n ≤ 255) (pre : List Byte) {k : Nat}
    (hk : bs.length < k) (acc : List Block) :
    parseGo (pre ++ (ser bs ++ [0#8])) k pre.length acc = .ok (acc ++ bs) := by
  obtain ⟨k, rfl⟩ := Nat.exists_eq_add_one_of_ne_zero (Nat.ne_zero_of_lt hk)
  induction bs generalizing pre k acc with
  | nil => simpa using parseGo_terminator pre k acc
  | cons b bs ih =>
    obtain ⟨⟨hn, h255⟩, hbs⟩ := List.forall_mem_cons.1 h
    obtain ⟨k, rfl⟩ := Nat.exists_eq_add_one_of_ne_zero (n := k) (by simp at hk; omega)
    have hnext := ih hbs (pre ++ BitVec.ofNat 8 b.n :: b.data) (acc ++ [b]) k (by simpa using hk)
    rw [ser_cons, List.cons_append, List.append_assoc, parseGo_block hn h255]
    simpa [hn] using hnext

theorem parse_ser {bs : List Block} (h : ∀ b ∈ bs, b.n = b.data.length + 1 ∧ b.n ≤ 255) :
    parse (ser bs ++ [0#8]) = .ok bs := by
  have hk : bs.length < (ser bs ++ [0#8]).length + 1 := by
    have := length_le_length_ser bs
    simp
    omega
  simpa [parse] using parseGo_ser h [] hk []

theorem parse_ser_of_wf {bs : List Block} (h : ∀ b ∈ bs, b.wf = true) : parse (ser bs ++ [0#8]) = .ok bs :=
  parse_ser fun b hb => by
    obtain ⟨hn, h255, -⟩ := block_wf_iff.1 (h b hb)
    exact ⟨hn, h255⟩

/-- Settles O47: `dec` fails only where `parse` does. -/
theorem wellFormedFrameParses : Obligations.WellFormedFrameParses := by
  refine ⟨fun bs => parse_ser_of_wf, ?_⟩
  rintro f ⟨bs, h, rfl⟩
  exact ⟨payloadOf bs, by rw [dec, parse_ser_of_wf h]⟩

end Sys2Proof.Machine

/-! ## The size estimator (R65 to R68): its closed forms, SIZE, and the frame's length against the estimate -/

namespace Sys2Proof.Machine

/-! ### Closed forms -/

/-- On a multiple of 254 the ceiling is the quotient (R65). -/
theorem esize_of_dvd {n : Nat} (h : 254 ∣ n) : esize n = n + n / 254 + 1 := by
  unfold esize
  omega

/-- Elsewhere the ceiling is one above the quotient: what the integer-division form misses (R65). -/
theorem esize_of_not_dvd {n : Nat} (h : ¬ 254 ∣ n) : esize n = n + n / 254 + 1 + 1 := by
  unfold esize
  omega

/-- The least natural number not below `n / 254`, on both sides. -/
theorem ceil_div_254 (n : Nat) : ⌈(n : ℚ) / 254⌉₊ = (n + 253) / 254 :=
  eq_of_forall_ge_iff fun c =>
    calc ⌈(n : ℚ) / 254⌉₊ ≤ c
      _ ↔ (n : ℚ) / 254 ≤ c := Nat.ceil_le
      _ ↔ (n : ℚ) ≤ c * 254 := div_le_iff₀ (by norm_num)
      _ ↔ n ≤ c * 254 := by norm_cast
      _ ↔ (n + 253) / 254 ≤ c := by omega

/-- Settles O18: the ceiling by `ceil_div_254`, the integer-division form by whether 254 divides `n`. -/
theorem estimatorIsCeilingForm : Obligations.EstimatorIsCeilingForm :=
  ⟨fun n => ⟨by rw [ceil_div_254, esize], rfl, esize_of_not_dvd, esize_of_dvd⟩, rfl, rfl, by decide⟩

/-- R67: only the step off a multiple of 254 opens a further block. -/
theorem esize_succ (n : Nat) : esize (n + 1) = esize n + (if n % 254 = 0 then 2 else 1) := by
  unfold esize
  split_ifs <;> omega

theorem esize_mul_254 (q : Nat) : esize (254 * q) = 255 * q + 1 := by
  rw [esize_of_dvd (Nat.dvd_mul_right 254 q)]
  omega

theorem esize_mul_254_add {q r : Nat} (h1 : 1 ≤ r) (h253 : r ≤ 253) : esize (254 * q + r) = 255 * q + r + 2 := by
  rw [esize_of_not_dvd (by omega)]
  omega

/-- Settles O19: the increments, the values at and between multiples of 254, and the width. -/
theorem estimatorArithmetic : Obligations.EstimatorArithmetic :=
  ⟨esize_succ, esize_mul_254, fun _ _ => esize_mul_254_add, fun _ _ => esize_lt_two_pow_succ⟩

/-! ### SIZE -/

/-- R66: the core's turn completes a running SIZE. -/
theorem coreStep_size {s : State} (h : s.status = .busy .size) : coreStep s = .next (completeSize s) :=
  coreStep_next.2 (.inr (.inl ⟨h, rfl⟩))

/-- Settles O17: the state after the start is `startFlags .size s`, and the value written is `esize s.sarg`. -/
theorem sizeCompletes : Obligations.SizeCompletes := fun s hb =>
  ⟨startFlags .size s, execSize_next.2 ⟨hb, rfl⟩, rfl, coreStep_size (startFlags_status .size s), rfl, rfl,
    step_noMove (s := startFlags .size s), fun h => by rw [h], esize_of_dvd, esize_lt_two_pow_succ⟩

/-! ### The frame's length -/

theorem hb_of_le {L : Nat} (h : L ≤ 254) : hb L = 1 := by
  unfold hb
  split_ifs <;> omega

theorem hb_of_gt {L : Nat} (h : 254 < L) : hb L = hb (L - 254) + 1 := by
  rw [hb, hb, if_neg (by omega), if_neg (by omega)]
  omega

/-- R76: a run of `L` bytes takes `hb(L)` length bytes beside its data. -/
theorem length_ser_chunk (r : List Byte) : (ser (chunk r)).length = r.length + hb r.length := by
  induction hl : r.length using Nat.strong_induction_on generalizing r with
  | _ l ih =>
    subst hl
    rcases Nat.lt_or_ge 254 r.length with hgt | hle
    · have hrest := ih (r.length - 254) (by omega) (r.drop 254) List.length_drop
      simp only [chunk_of_gt hgt, hb_of_gt hgt, ser_cons, List.length_cons, List.length_append, List.length_take, hrest]
      omega
    · simp [chunk_of_le hle, hb_of_le hle, ser_cons]

theorem length_ser_runs (rs : List (List Byte)) :
    (ser (rs.flatMap chunk)).length = (rs.map List.length).sum + (rs.map (fun r => hb r.length)).sum := by
  induction rs with
  | nil => rfl
  | cons r rs ih =>
    simp only [List.flatMap_cons, ser_append, List.length_append, length_ser_chunk, ih, List.map_cons, List.sum_cons]
    omega

/-- The data of every run, a length byte per block, and the terminator (R83). -/
theorem length_enc {p : List Byte} (h : p ≠ []) :
    (enc p).length = ((split0 p).map List.length).sum + ((split0 p).map (fun r => hb r.length)).sum + 1 := by
  rw [enc, blocks_of_ne_nil h, List.length_append, length_ser_runs, List.length_singleton]

/-- R8: a payload is its runs with one separator between neighbours. -/
theorem length_split0 (p : List Byte) : ((split0 p).map List.length).sum + (split0 p).length = p.length + 1 := by
  induction p with
  | nil => rfl
  | cons b p ih =>
    by_cases hb : b = 0#8
    · subst hb
      simp only [split0_zero, List.map_cons, List.sum_cons, List.length_cons, List.length_nil]
      omega
    · obtain ⟨r, rs, hs⟩ := List.exists_cons_of_ne_nil (split0_ne_nil p)
      simp only [hs, List.map_cons, List.sum_cons, List.length_cons] at ih
      simp only [split0_nonzero hb hs, List.map_cons, List.sum_cons, List.length_cons]
      omega

/-- The room for a payload is the frame of a single run of its length. -/
theorem encodeRoom_eq_hb (L : Nat) : encodeRoom L = L + hb L + 1 := by
  unfold encodeRoom hb esize
  split_ifs <;> omega

/-- Behind a run and its separator the rest keeps its room: the separator's byte pays for the run's last length byte. -/
theorem encodeRoom_run (L x : Nat) : L + hb L + encodeRoom x ≤ encodeRoom (L + 1 + x) := by
  unfold encodeRoom hb esize
  split_ifs <;> omega

/-- Splitting a payload into runs never makes the frame longer than one run of the same length. -/
theorem runs_le_encodeRoom {rs : List (List Byte)} {n : Nat} (h : rs ≠ [])
    (hn : (rs.map List.length).sum + rs.length = n + 1) :
    (rs.map List.length).sum + (rs.map (fun r => hb r.length)).sum + 1 ≤ encodeRoom n := by
  induction rs generalizing n with
  | nil => exact absurd rfl h
  | cons r rs ih =>
    simp only [List.map_cons, List.sum_cons, List.length_cons] at hn ⊢
    rcases eq_or_ne rs [] with rfl | hrs
    · obtain rfl : r.length = n := by simpa using hn
      simp [encodeRoom_eq_hb]
    · have hpos := List.length_pos_of_ne_nil hrs
      obtain ⟨x, rfl⟩ : ∃ x, n = r.length + 1 + x := ⟨n - (r.length + 1), by omega⟩
      have hrest := ih hrs (n := x) (by omega)
      have hrun := encodeRoom_run r.length x
      omega

theorem encodeRoom_of_ne_nil {p : List Byte} (h : p ≠ []) : encodeRoom p.length = esize p.length :=
  if_neg (mt List.length_eq_zero_iff.1 h)

theorem length_enc_le_esize (p : List Byte) : (enc p).length ≤ esize p.length := by
  by_cases hp : p = []
  · subst hp
    rfl
  · rw [length_enc hp, ← encodeRoom_of_ne_nil hp]
    exact runs_le_encodeRoom (split0_ne_nil p) (length_split0 p)

/-- A zero-free payload is one run. -/
theorem length_enc_of_zero_free {p : List Byte} (h : ∀ b ∈ p, b ≠ 0#8) : (enc p).length = esize p.length := by
  by_cases hp : p = []
  · subst hp
    rfl
  · rw [length_enc hp, split0_of_zero_free h, ← encodeRoom_of_ne_nil hp, encodeRoom_eq_hb]
    simp

/-- Settles O20: the bound over the runs, and the one run of a zero-free payload. -/
theorem frameLengthBound : Obligations.FrameLengthBound := fun p =>
  ⟨length_enc_le_esize p, length_enc_of_zero_free⟩

end Sys2Proof.Machine

/-! ## The framer and the encoder over byte sequences (R71, R80 to R83, R86, R87) -/

namespace Sys2Proof.Machine

/-! ### The blocks of a list's runs, taken from the front -/

/-- The blocks of the runs of `p`: `blocks p` but for the empty list, which is one empty run here. It is what the framer
still has to emit while `fdone = 0`: behind a final separator that is the block `0x01`. -/
def runBlocks (p : List Byte) : List Block := (split0 p).flatMap chunk

theorem blocks_eq_runBlocks {p : List Byte} (h : p ≠ []) : blocks p = runBlocks p := blocks_of_ne_nil h

/-- R8: a zero byte separates the runs before it from the runs behind it. -/
theorem split0_append_zero (a p : List Byte) : split0 (a ++ 0#8 :: p) = split0 a ++ split0 p := by
  induction a with
  | nil => exact split0_zero p
  | cons b a ih =>
    by_cases hb : b = 0#8
    · subst hb
      rw [List.cons_append, split0_zero, split0_zero, ih, List.cons_append]
    · obtain ⟨r, rs, hs⟩ := List.exists_cons_of_ne_nil (split0_ne_nil a)
      rw [hs] at ih
      rw [List.cons_append, split0_nonzero hb ih, split0_nonzero hb hs]
      rfl

/-- Non-zero bytes in front join the first run. -/
theorem split0_append_zero_free {d p r : List Byte} {rs : List (List Byte)} (hd : ∀ x ∈ d, x ≠ 0#8)
    (h : split0 p = r :: rs) : split0 (d ++ p) = (d ++ r) :: rs := by
  induction d with
  | nil => exact h
  | cons b d ih =>
    obtain ⟨hb, hd⟩ := List.forall_mem_cons.1 hd
    exact split0_nonzero hb (ih hd)

theorem runBlocks_of_zero_free {r : List Byte} (h : ∀ x ∈ r, x ≠ 0#8) : runBlocks r = chunk r := by
  simp [runBlocks, split0_of_zero_free h]

theorem runBlocks_append_zero (a p : List Byte) : runBlocks (a ++ 0#8 :: p) = runBlocks a ++ runBlocks p := by
  rw [runBlocks, split0_append_zero, List.flatMap_append, ← runBlocks, ← runBlocks]

/-- EMIT_FULL (R73): with a non-zero byte behind 254 non-zero bytes, these are a full block. -/
theorem runBlocks_full {d p : List Byte} {x : Byte} (hd : ∀ y ∈ d, y ≠ 0#8) (hlen : d.length = 254) (hx : x ≠ 0#8) :
    runBlocks (d ++ x :: p) = ⟨255, d⟩ :: runBlocks (x :: p) := by
  obtain ⟨r, rs, hs⟩ := List.exists_cons_of_ne_nil (split0_ne_nil p)
  have hrun := split0_nonzero hx hs
  have hchunk : chunk (d ++ x :: r) = ⟨255, d⟩ :: chunk (x :: r) := by
    rw [chunk_of_gt (by simp [hlen]), ← hlen, List.take_left, List.drop_left]
  rw [runBlocks, runBlocks, split0_append_zero_free hd hrun, hrun, List.flatMap_cons, List.flatMap_cons, hchunk,
    List.cons_append]

/-- EMIT_FINAL (R74) at the end of the payload. -/
theorem runBlocks_final {d : List Byte} (hd : ∀ y ∈ d, y ≠ 0#8) (hlen : d.length ≤ 254) :
    runBlocks d = [⟨d.length + 1, d⟩] := by
  rw [runBlocks_of_zero_free hd, chunk_of_le hlen]

/-- EMIT_FINAL (R74, R75) before a separator, which produces no byte of its own. -/
theorem runBlocks_separator {d : List Byte} (hd : ∀ y ∈ d, y ≠ 0#8) (hlen : d.length ≤ 254) (p : List Byte) :
    runBlocks (d ++ 0#8 :: p) = ⟨d.length + 1, d⟩ :: runBlocks p := by
  rw [runBlocks_append_zero, runBlocks_final hd hlen, List.singleton_append]

/-! ### The frame of a payload -/

theorem enc_of_ne_nil {p : List Byte} (h : p ≠ []) : enc p = ser (runBlocks p) ++ [0#8] := by
  rw [enc, blocks_eq_runBlocks h]

/-- Settles O29: the framer's blocks are well-formed, and the frame serialises them. -/
theorem encodedFrameWellFormed : Obligations.EncodedFrameWellFormed := fun p =>
  ⟨⟨blocks p, blocks_wf p, rfl⟩, blocks_wf p⟩

/-- R8: one run more than zero bytes. -/
theorem split0_length_eq_count (p : List Byte) : (split0 p).length = p.count 0#8 + 1 := by
  induction p with
  | nil => rfl
  | cons b p ih =>
    by_cases hb : b = 0#8
    · subst hb
      rw [split0_zero, List.length_cons, ih, List.count_cons_self]
    · obtain ⟨r, rs, hs⟩ := List.exists_cons_of_ne_nil (split0_ne_nil p)
      rw [split0_nonzero hb hs, List.count_cons_of_ne hb, ← ih, hs, List.length_cons, List.length_cons]

/-- Settles O30: the separators are the zero bytes, and `length_enc` counts the rest. -/
theorem exactFrameLength : Obligations.ExactFrameLength := by
  refine ⟨rfl, fun p hp => ?_⟩
  have hcount := split0_length_eq_count p
  have hsum := length_split0 p
  refine ⟨hcount, by omega, ?_⟩
  rw [length_enc hp]
  omega

/-- A zero-free payload is framed as one run. -/
theorem enc_of_zero_free {d : List Byte} (h : ∀ b ∈ d, b ≠ 0#8) (hd : 0 < d.length) :
    enc d = ser (chunk d) ++ [0#8] := by
  rw [enc_of_ne_nil (List.ne_nil_of_length_pos hd), runBlocks_of_zero_free h]

/-- The bytes of a run's last block. -/
theorem ser_chunk_of_le {r : List Byte} (h : r.length ≤ 254) : ser (chunk r) = BitVec.ofNat 8 (r.length + 1) :: r := by
  simp [chunk_of_le h, ser_cons]

/-- The bytes of a full block, then those of the rest of the run. -/
theorem ser_chunk_of_gt {r : List Byte} (h : 254 < r.length) :
    ser (chunk r) = 0xFF#8 :: (r.take 254 ++ ser (chunk (r.drop 254))) := by
  rw [chunk_of_gt h, ser_cons]

/-- Settles O32: full blocks while more than 254 bytes are left, then the final one. -/
theorem fullBlockBoundary : Obligations.FullBlockBoundary := by
  intro d hz
  have henc := enc_of_zero_free hz
  refine ⟨fun h => ?_, fun h => ?_, fun h => ?_, fun h => ?_, fun h => ?_⟩ <;> rw [henc (by omega)]
  · rw [ser_chunk_of_le (by omega), h, List.cons_append]
  · rw [ser_chunk_of_le (by omega), h, List.cons_append]
  · rw [ser_chunk_of_gt (by omega), ser_chunk_of_le (by simp [h])]
    simp [h]
  · rw [ser_chunk_of_gt (by omega), ser_chunk_of_le (by simp [h])]
    simp [h]
  · rw [ser_chunk_of_gt (by omega), ser_chunk_of_gt (by simp [h]), ser_chunk_of_le (by simp [h])]
    simp [h]

/-! ### The separator that leaves no trace (R87) -/

/-- A run of positive-multiple-of-254 length is full blocks whether or not its run goes on. -/
theorem runBlocks_lost {r : List Byte} (hz : ∀ y ∈ r, y ≠ 0#8) (hpos : 0 < r.length) (hr : r.length % 254 = 0)
    {x : Byte} (hx : x ≠ 0#8) (p : List Byte) : runBlocks (r ++ x :: p) = chunk r ++ runBlocks (x :: p) := by
  induction hl : r.length using Nat.strong_induction_on generalizing r with
  | _ l ih =>
    subst hl
    rcases Nat.lt_or_ge 254 r.length with hgt | hle
    · have hlen : (r.drop 254).length = r.length - 254 := List.length_drop
      have hzd : ∀ y ∈ r.drop 254, y ≠ 0#8 := fun y hy => hz y (List.mem_of_mem_drop hy)
      have hrest := ih _ (by omega) hzd (by omega) (by omega) rfl
      obtain ⟨y, q, hq⟩ := List.exists_cons_of_ne_nil (l := r.drop 254) (List.ne_nil_of_length_pos (by omega))
      have hy : y ≠ 0#8 := hzd y (by simp [hq])
      have htake : ∀ z ∈ r.take 254, z ≠ 0#8 := fun z h => hz z (List.mem_of_mem_take h)
      calc runBlocks (r ++ x :: p)
        _ = runBlocks (r.take 254 ++ y :: (q ++ x :: p)) := by
          rw [← List.cons_append, ← hq, ← List.append_assoc, List.take_append_drop]
        _ = ⟨255, r.take 254⟩ :: runBlocks (y :: (q ++ x :: p)) :=
          runBlocks_full htake (by simp; omega) hy
        _ = chunk r ++ runBlocks (x :: p) := by
          rw [← List.cons_append, ← hq, hrest, chunk_of_gt hgt, List.cons_append]
    · have hfull : r.length = 254 := by omega
      rw [runBlocks_full hz hfull hx, chunk_of_le hle, hfull, List.singleton_append]

/-- Behind a separator the framer starts afresh: what stands in front of it adds its own blocks. -/
theorem runBlocks_after_separator {a : List Byte} (ha : a = [] ∨ a.getLast? = some 0#8) {p q : List Byte}
    (h : runBlocks p = runBlocks q) : runBlocks (a ++ p) = runBlocks (a ++ q) := by
  rcases ha with rfl | ha
  · exact h
  · obtain ⟨a', rfl⟩ := List.getLast?_eq_some_iff.1 ha
    simp only [List.append_assoc, List.singleton_append, runBlocks_append_zero, h]

/-- Settles O33: with and without the separator the last run of `a ++ r` is the same full blocks. -/
theorem encoderNotInjective : Obligations.EncoderNotInjective := by
  intro a r b x ha hz hr hx
  simp only [losesSeparator, Bool.and_eq_true, decide_eq_true_eq] at hr
  obtain ⟨hpos, hmod⟩ := hr
  have hruns : runBlocks (r ++ 0#8 :: x :: b) = runBlocks (r ++ x :: b) := by
    rw [runBlocks_append_zero, runBlocks_of_zero_free hz, runBlocks_lost hz hpos hmod hx]
  rw [enc_of_ne_nil (by simp), enc_of_ne_nil (by simp)]
  simpa using congrArg ser (runBlocks_after_separator ha hruns)

/-! ### The byte-serial encoder (R81) -/

/-- What the byte-serial encoder does behind the last byte: the open block's length byte, then the terminator. -/
def serialFinish (a : List Byte × Nat × Nat) : List Byte := a.1.set a.2.1 (BitVec.ofNat 8 (a.2.2 + 1)) ++ [0#8]

theorem encSerial_of_ne_nil {p : List Byte} (h : p ≠ []) :
    encSerial p = serialFinish (p.foldl serialByte ([0#8], 0, 0)) := by
  rw [encSerial, if_neg h]
  rfl

/-- The state of the byte-serial encoder with `pre` finished and the data bytes `d` in the open block, whose length byte
is still a placeholder. -/
def serialOpen (pre d : List Byte) : List Byte × Nat × Nat := (pre ++ 0#8 :: d, pre.length, d.length)

theorem serialFinish_open (pre d : List Byte) :
    serialFinish (serialOpen pre d) = pre ++ (BitVec.ofNat 8 (d.length + 1) :: d ++ [0#8]) := by
  simp [serialFinish, serialOpen]

theorem serialByte_zero (pre d : List Byte) :
    serialByte (serialOpen pre d) 0#8 = serialOpen (pre ++ BitVec.ofNat 8 (d.length + 1) :: d) [] := by
  simp [serialByte, serialOpen]

theorem serialByte_full {d : List Byte} (pre : List Byte) {b : Byte} (hb : b ≠ 0#8) (hd : d.length = 254) :
    serialByte (serialOpen pre d) b = serialOpen (pre ++ 0xFF#8 :: d) [b] := by
  simp [serialByte, serialOpen, hb, hd]

theorem serialByte_data {d : List Byte} (pre : List Byte) {b : Byte} (hb : b ≠ 0#8) (hd : d.length ≠ 254) :
    serialByte (serialOpen pre d) b = serialOpen pre (d ++ [b]) := by
  simp [serialByte, serialOpen, hb, hd]

/-- The invariant: behind `pre` come the blocks of the open block's data and the bytes not yet read. -/
theorem serialFinish_foldl (p : List Byte) {d : List Byte} (pre : List Byte) (hd : ∀ x ∈ d, x ≠ 0#8)
    (hlen : d.length ≤ 254) :
    serialFinish (p.foldl serialByte (serialOpen pre d)) = pre ++ (ser (runBlocks (d ++ p)) ++ [0#8]) := by
  induction p generalizing pre d with
  | nil =>
    rw [List.append_nil, List.foldl_nil, serialFinish_open, runBlocks_final hd hlen]
    simp [ser_cons]
  | cons b p ih =>
    rw [List.foldl_cons]
    by_cases hb : b = 0#8
    · subst hb
      rw [serialByte_zero, ih _ (by simp) (by simp), runBlocks_separator hd hlen]
      simp [ser_cons]
    · by_cases hfull : d.length = 254
      · rw [serialByte_full pre hb hfull, ih _ (by simpa using hb) (by simp), runBlocks_full hd hfull hb]
        simp [ser_cons]
      · have hdb : ∀ x ∈ d ++ [b], x ≠ 0#8 := List.forall_mem_append.2 ⟨hd, by simpa using hb⟩
        rw [serialByte_data pre hb hfull, ih pre hdb (by simp; omega), List.append_assoc, List.singleton_append]

/-- Settles O27: the invariant at the start, where nothing is finished and the open block is empty. -/
theorem byteSerialEncoderAgrees : Obligations.ByteSerialEncoderAgrees := by
  intro p
  by_cases hp : p = []
  · subst hp
    rfl
  · rw [encSerial_of_ne_nil hp, enc_of_ne_nil hp]
    exact serialFinish_foldl p (d := []) [] (by simp) (by simp)

end Sys2Proof.Machine

/-! ## ENCODE on the registers (R72 to R79, R85): the steps of a run, and that they deliver the frame -/

namespace Sys2Proof.Machine

/-! ### One step of a running ENCODE -/

theorem coreStep_encode {s : State} (hs : s.status = .busy .encode) : coreStep s = encodeStep s := by
  simp [coreStep, hs]

/-- `OBUF` of `t` is that of `s` with the block `b` written at `wp` (R78). -/
structure BlockWritten (s : State) (b : BlockRef) (t : State) : Prop where
  length : readObuf t s.wp = BitVec.ofNat 8 b.n
  data : ∀ j, j < b.cnt → readObuf t (s.wp + 1 + j) = readIbuf s (b.start + j)
  outside : ∀ a, a < s.wp ∨ s.wp + (b.cnt + 1) ≤ a → readObuf t a = readObuf s a

theorem blockWritten_appended (s : State) (b : BlockRef) (fp : Nat) (fdone : Bool) :
    BlockWritten s b (appended (blockBytes s b) { s with fp := fp, fdone := fdone }) where
  length := readObuf_appended_inside (s := { s with fp := fp, fdone := fdone }) (j := 0) (by simp)
  data j hj := by
    rw [Nat.add_assoc, Nat.add_comm 1 j]
    exact (readObuf_appended_inside (s := { s with fp := fp, fdone := fdone }) (by simpa using hj)).trans
      (by simp [blockBytes])
  outside a ha := readObuf_appended_outside (s := { s with fp := fp, fdone := fdone }) (by simpa using ha)

/-- The state after a step with `fdone = 0`: FRAME_NEXT has moved the framer, and its block is written (R72, R78). -/
theorem encoded_block {s : State} (hd : s.fdone = false) :
    encoded s = appended (blockBytes s (frameNext s).1)
      { s with fp := (frameNext s).2.fp, fdone := (frameNext s).2.fdone } := by
  rw [encoded, if_neg (by simp [hd]), frameNext_snd s]
  rfl

/-- That step as the core's turn, `OBUF` told byte by byte. -/
theorem coreStep_block {s : State} (hs : s.status = .busy .encode) (hd : s.fdone = false) (hl : s.ilen ≤ fmax s.cfg)
    (hroom : s.wp + ((frameNext s).1.cnt + 1) ≤ fmax s.cfg) :
    ∃ t, coreStep s = .next t ∧
      t = { s with fp := (frameNext s).2.fp, fdone := (frameNext s).2.fdone, wp := s.wp + ((frameNext s).1.cnt + 1),
                   obuf := t.obuf } ∧
      BlockWritten s (frameNext s).1 t := by
  refine ⟨encoded s, ?_, ?_, ?_⟩
  · rw [coreStep_encode hs, encodeStep_next, blockBytes_length, encoded, hd, frameNext_snd s]
    exact ⟨hl, .inr ⟨rfl, hroom, rfl⟩⟩
  · rw [encoded_block hd]
    simp [appended]
  · rw [encoded_block hd]
    exact blockWritten_appended _ _ _ _

/-- The state after a step with `fdone = 1`: the terminator is written and the result delivered (R77, R79). -/
theorem encoded_term {s : State} (hd : s.fdone = true) : encoded s = deliver (appended [0#8] s) := if_pos hd

theorem coreStep_term {s : State} (hs : s.status = .busy .encode) (hd : s.fdone = true) (hl : s.ilen ≤ fmax s.cfg)
    (hroom : s.wp + 1 ≤ fmax s.cfg) : coreStep s = .next (deliver (appended [0#8] s)) := by
  rw [coreStep_encode hs, encodeStep_next]
  exact ⟨hl, .inl ⟨hd, hroom, rfl⟩⟩

/-- Inside a run the look-ahead finds the same end. -/
theorem runEnd_later {s : State} (h : s.fp ≤ s.ilen) {x : Nat} (hx : s.fp ≤ x) (hxe : x ≤ runEnd s) :
    runEnd { s with fp := x } = runEnd s := by
  obtain ⟨-, hle, hnz, hz⟩ := runEnd_spec h
  obtain ⟨hge', hle', hnz', hz'⟩ := runEnd_spec (s := { s with fp := x }) (Nat.le_trans hxe hle)
  simp only at hge' hle' hnz' hz'
  rcases Nat.lt_trichotomy (runEnd { s with fp := x }) (runEnd s) with hlt | heq | hgt
  · exact absurd (hz' (by omega)) (hnz _ (by omega) hlt)
  · exact heq
  · exact absurd (hz (by omega)) (hnz' _ hxe hgt)

/-- Settles O22: FRAME_NEXT's first case; `fp` moves inside the run. -/
theorem emitFullBlock : Obligations.EmitFullBlock := by
  refine ⟨fun d b bs => by simp [payloadOf_cons_cons], fun s hs hd hl hf hgt hroom => ?_⟩
  obtain ⟨-, -, hnz, -⟩ := runEnd_spec hf
  have hn : frameNext s = (⟨255, s.fp, 254⟩, { s with fp := s.fp + 254 }) := if_pos hgt
  obtain ⟨t, ht, hframe, hw⟩ := coreStep_block hs hd hl (by rwa [hn])
  rw [hn] at hframe hw
  have hend : runEnd t = runEnd s := by
    rw [hframe, ← runEnd_later hf (x := s.fp + 254) (by omega) (by omega)]
    exact runEnd_congr rfl rfl rfl rfl
  have hfp : t.fp = s.fp + 254 := by rw [hframe]
  exact ⟨t, ht, hframe, hw.length, fun j hj => ⟨hw.data j hj, hnz _ (by omega) (by omega)⟩, hw.outside, hend, by omega⟩

/-- Settles O23: FRAME_NEXT's second case, at the end of the payload and before a separator. -/
theorem emitFinalBlock : Obligations.EmitFinalBlock := by
  rintro s hs hd hl hf L rfl hle hroom
  obtain ⟨-, hei, -, hsep⟩ := runEnd_spec hf
  have hbyte : (BitVec.ofNat 8 (runEnd s - s.fp + 1)).toNat = runEnd s - s.fp + 1 := toNat_lengthByte (by omega)
  have hn : frameNext s = (⟨runEnd s - s.fp + 1, s.fp, runEnd s - s.fp⟩,
      if runEnd s = s.ilen then { s with fdone := true } else { s with fp := runEnd s + 1 }) := if_neg (by omega)
  obtain ⟨t, ht, hframe, hw⟩ := coreStep_block hs hd hl (by rwa [hn])
  rw [hn] at hframe hw
  refine ⟨t, ht, by rw [hframe], by rw [hw.length, hbyte], hw.data, hw.outside, fun he => ?_, fun he => ?_⟩
  · rw [if_pos he] at hframe
    exact ⟨by rw [hframe], by rw [hframe]⟩
  · rw [if_neg he] at hframe
    exact ⟨by rw [hframe, hd], by rw [hframe], hsep (by omega)⟩

/-- With every byte below `wp` written, the delivery behind the terminator keeps them and the terminator. -/
theorem readObuf_deliver_term {s : State} (hw : ∀ i, i < s.wp → (s.obuf.get? i).isSome = true) {a : Nat}
    (h : a < s.wp + 1) : readObuf (deliver (appended [0#8] s)) a = readObuf (appended [0#8] s) a :=
  readObuf_deliver (s := appended [0#8] s) h (writeList_isSome hw h)

theorem unspecifiedFrom_deliver (s : State) : UnspecifiedFrom s.wp (deliver s) := fun i hi => by
  rw [get?_deliver, if_neg (Nat.not_lt.2 hi)]

/-- Settles O24: the terminator is written at `wp`, and the delivery keeps what lies below the new end. -/
theorem emitTerminator : Obligations.EmitTerminator := by
  intro s hs hd hl hroom hw
  refine ⟨_, coreStep_term hs hd hl hroom, rfl, ?_, fun a ha => ?_, unspecifiedFrom_deliver (appended [0#8] s)⟩
  · rw [readObuf_deliver_term hw (Nat.lt_succ_self _)]
    exact readObuf_appended_inside (j := 0) (by simp)
  · rw [readObuf_deliver_term hw (by omega), readObuf_appended_outside (.inl ha)]

/-! ### What ENCODE writes (R85) -/

/-- `t` is `s` but for what a running ENCODE writes: the framer's registers, `wp` and its result. -/
def EncodeFrame (s t : State) : Prop :=
  t = { s with fp := t.fp, fdone := t.fdone, wp := t.wp, olen := t.olen, status := t.status, obuf := t.obuf,
               obufDraw := t.obufDraw }

theorem EncodeFrame.trans {s t u : State} (h : EncodeFrame s t) (h' : EncodeFrame t u) : EncodeFrame s u := by
  rw [EncodeFrame] at h h' ⊢
  rw [h] at h'
  exact h'

theorem encodeFrame_encoded (s : State) : EncodeFrame s (encoded s) := by
  unfold encoded
  split
  · rfl
  · rw [frameNext_snd s]
    rfl

/-- Settles O31: a sound state's turn answers, and the answer is `encoded s`. -/
theorem encodeCannotFail : Obligations.EncodeCannotFail := by
  intro s h hs
  obtain ⟨t, ht⟩ := h.coreStep_answers
  obtain rfl : t = encoded s := (coreStep_eq_advance ht).trans (advance_encode hs)
  exact ⟨_, ht, (encoded_status s).imp_left fun h => h.trans hs, encodeFrame_encoded s⟩

/-! ### The blocks still to come -/

/-- The block that a reference names, its data read out of `IBUF`. -/
def blockAt (s : State) (b : BlockRef) : Block := ⟨b.n, readSlice s b.start b.cnt⟩

theorem blockBytes_append (s : State) (b : BlockRef) (bs : List Block) :
    blockBytes s b ++ ser bs = ser (blockAt s b :: bs) := rfl

/-- The blocks the framer has not emitted yet: those of the payload from `fp` on (R72). -/
def pendingBlocks (s : State) : List Block :=
  if s.fdone then [] else runBlocks (readSlice s s.fp (s.ilen - s.fp))

/-- A bound on their number: every block but the last takes at least one byte of the payload. -/
def blocksLeft (s : State) : Nat := if s.fdone then 0 else s.ilen - s.fp + 1

theorem pendingBlocks_of_done {s : State} (h : s.fdone = true) : pendingBlocks s = [] := if_pos h

theorem readSlice_zero_free {s : State} {i cnt : Nat} (h : ∀ j, i ≤ j → j < i + cnt → readIbuf s j ≠ 0#8) :
    ∀ x ∈ readSlice s i cnt, x ≠ 0#8 := by
  intro x hx
  obtain ⟨j, hj, rfl⟩ := List.mem_map.1 hx
  obtain ⟨hij, hjc⟩ := List.mem_range'_1.1 hj
  exact h j hij hjc

/-- A slice taken apart at its byte `a`. -/
theorem readSlice_split (s : State) (i a k : Nat) :
    readSlice s i (a + (k + 1)) = readSlice s i a ++ readIbuf s (i + a) :: readSlice s (i + a + 1) k := by
  rw [← readSlice_succ, ← readSlice_append]

/-- FRAME_NEXT emits the first of the pending blocks and leaves the others pending (R72 to R75). -/
theorem frameNext_pending {s : State} (hf : s.fp ≤ s.ilen) (hd : s.fdone = false) :
    pendingBlocks s = blockAt s (frameNext s).1 :: pendingBlocks (frameNext s).2 := by
  obtain ⟨hfe, hei, hnz, hsep⟩ := runEnd_spec hf
  have hz (cnt : Nat) (h : s.fp + cnt ≤ runEnd s) : ∀ x ∈ readSlice s s.fp cnt, x ≠ 0#8 :=
    readSlice_zero_free fun j h1 h2 => hnz j h1 (by omega)
  rcases frameNext_cases s with ⟨hc, hn⟩ | ⟨hc, he, hn⟩ | ⟨hc, he, hn⟩ <;>
    simp only [hn, pendingBlocks, blockAt, hd, if_true, if_false, Bool.false_eq_true]
  · obtain ⟨k, hk⟩ : ∃ k, s.ilen - s.fp = 254 + (k + 1) := ⟨s.ilen - s.fp - 255, by omega⟩
    have hx : readIbuf s (s.fp + 254) ≠ 0#8 := hnz _ (by omega) (by omega)
    rw [show s.ilen - (s.fp + 254) = k + 1 by omega, hk, readSlice_split,
      runBlocks_full (hz 254 (by omega)) (readSlice_length s s.fp 254) hx]
    rfl
  · rw [← he, runBlocks_final (hz _ (by omega)) (by simpa using hc), readSlice_length]
  · obtain ⟨k, hk⟩ : ∃ k, s.ilen - s.fp = runEnd s - s.fp + (k + 1) := ⟨s.ilen - runEnd s - 1, by omega⟩
    rw [show s.ilen - (runEnd s + 1) = k by omega, hk, readSlice_split, Nat.add_sub_cancel' hfe, hsep (by omega),
      runBlocks_separator (hz _ (by omega)) (by simpa using hc), readSlice_length]
    rfl

/-- Each block brings the framer nearer to its end. -/
theorem frameNext_blocksLeft {s : State} (hf : s.fp ≤ s.ilen) (hd : s.fdone = false) :
    blocksLeft (frameNext s).2 < blocksLeft s := by
  obtain ⟨hfe, hei, -, -⟩ := runEnd_spec hf
  rcases frameNext_cases s with ⟨hc, hn⟩ | ⟨hc, he, hn⟩ | ⟨hc, he, hn⟩ <;>
    simp only [hn, blocksLeft, hd, if_true, if_false, Bool.false_eq_true] <;> omega

theorem frameNext_fp_le {s : State} (hf : s.fp ≤ s.ilen) : (frameNext s).2.fp ≤ s.ilen := by
  obtain ⟨hfe, hei, -, -⟩ := runEnd_spec hf
  rcases frameNext_cases s with ⟨hc, hn⟩ | ⟨hc, he, hn⟩ | ⟨hc, he, hn⟩ <;> simp only [hn] <;> omega

/-- From any place of the framer on, it emits the pending blocks. -/
theorem framed_pending {k : Nat} {s : State} (hf : s.fp ≤ s.ilen) (hk : blocksLeft s ≤ k) :
    (framed k s).map (blockAt s) = pendingBlocks s := by
  induction k generalizing s with
  | zero =>
    have hd : s.fdone = true := by
      by_contra hd
      simp [blocksLeft, hd] at hk
    rw [pendingBlocks_of_done hd, framed, List.map_nil]
  | succ k ih =>
    cases hd : s.fdone with
    | true => rw [pendingBlocks_of_done hd, framed, if_pos hd, List.map_nil]
    | false =>
      have hsnd := frameNext_snd s
      have hblock : blockAt s = blockAt (frameNext s).2 := funext fun b => by
        rw [hsnd]
        rfl
      have hilen : (frameNext s).2.ilen = s.ilen := by rw [hsnd]
      have hrest := ih (s := (frameNext s).2) (hilen.symm ▸ frameNext_fp_le hf)
        (by have := frameNext_blocksLeft hf hd; omega)
      rw [frameNext_pending hf hd, framed, hd, if_neg Bool.false_ne_true, List.map_cons, ← hrest, hblock]

/-- At the start of ENCODE the pending blocks are those of the payload. -/
theorem pendingBlocks_start {s : State} (hf : s.fp = 0) (hd : s.fdone = decide (s.ilen = 0)) :
    pendingBlocks s = blocks (operand s) := by
  by_cases h0 : s.ilen = 0
  · have hnil : operand s = [] := List.length_eq_zero_iff.1 (by rw [operand_length, h0])
    rw [pendingBlocks_of_done (by simp [hd, h0]), hnil, blocks_nil]
  · have hne : operand s ≠ [] := List.ne_nil_of_length_pos (by rw [operand_length]; omega)
    rw [pendingBlocks, hd, hf, if_neg (by simp [h0]), blocks_eq_runBlocks hne]
    rfl

theorem blocksLeft_le (s : State) : blocksLeft s ≤ s.ilen - s.fp + 1 := by
  unfold blocksLeft
  split <;> omega

/-- Settles O25: `framed_pending` from the start of the payload. -/
theorem framerEmitsBlocks : Obligations.FramerEmitsBlocks := by
  intro s hf hd k hk
  rw [← pendingBlocks_start hf hd]
  exact framed_pending (by omega) ((blocksLeft_le s).trans (by omega))

/-! ### A whole run of ENCODE -/

/-- The bytes written so far. -/
def emitted (s : State) : List Byte := (List.range' 0 s.wp).map (readObuf s)

theorem emitted_appended (bs : List Byte) (s : State) : emitted (appended bs s) = emitted s ++ bs := by
  have hbelow : (List.range' 0 s.wp).map (readObuf (appended bs s)) = emitted s :=
    List.map_congr_left fun a ha => readObuf_appended_outside (.inl (by simpa using ha))
  have habove : (List.range' s.wp bs.length).map (readObuf (appended bs s)) = bs :=
    List.ext_getElem (by simp) fun j hj hj' => by
      rw [List.getElem_map, List.getElem_range', Nat.one_mul, readObuf_appended_inside hj']
  rw [emitted, appended_wp, ← List.range'_append_1, List.map_append, hbelow, Nat.zero_add, habove]

/-- What is delivered is what has been written. -/
theorem result_deliver {s : State} (hw : ∀ i, i < s.wp → (s.obuf.get? i).isSome = true) :
    result (deliver s) = emitted s :=
  List.map_congr_left fun a ha =>
    have ha : a < s.wp := by simpa using ha
    readObuf_deliver ha (hw a ha)

/-- A running ENCODE with no move of the host left: there is room for what it still has to write, and every byte below
`wp` is written. -/
structure Encoding (s : State) : Prop where
  running : s.status = .busy .encode
  silent : s.host = []
  sound : EncodeSound s
  written : ∀ i, i < s.wp → (s.obuf.get? i).isSome = true

theorem Encoding.step_encoded {s : State} (h : Encoding s) : step s = .next (encoded s) := by
  obtain ⟨t, ht⟩ := h.sound.encodeStep_answers
  rw [step_noMove h.silent, coreStep_encode h.running, ht, encodeStep_eq_encoded ht]

/-- A block keeps the operation running, and its bytes are those of the first pending block. -/
theorem Encoding.after_block {s : State} (h : Encoding s) (hd : s.fdone = false) :
    Encoding (encoded s) ∧ blocksLeft (encoded s) < blocksLeft s ∧
      emitted (encoded s) ++ ser (pendingBlocks (encoded s)) = emitted s ++ ser (pendingBlocks s) := by
  have hfp := h.sound.fp_le
  have hleft := frameNext_blocksLeft hfp hd
  have hpend := frameNext_pending hfp hd
  obtain ⟨hf, hroom⟩ := frameNext_room h.sound hd
  rw [← blockBytes_length s] at hroom
  rw [frameNext_snd s] at hleft hpend
  rw [encoded_block hd]
  refine ⟨⟨h.running, h.silent, ⟨h.sound.ilen_le, hf, hroom⟩, fun _ => writeList_isSome h.written⟩, hleft, ?_⟩
  rw [emitted_appended, List.append_assoc, hpend, ← blockBytes_append]
  rfl

/-- How the run that goes on from `s` ends: the state `u`, where the frame is delivered. -/
structure EncodeEnds (s u : State) : Prop where
  result : result u = emitted s ++ (ser (pendingBlocks s) ++ [0#8])
  status : u.status = .doneOk
  frame : EncodeFrame s u
  unspecified : UnspecifiedFrom u.olen u

/-- The last step: the terminator behind what has been written. -/
theorem Encoding.after_term {s : State} (h : Encoding s) (hd : s.fdone = true) : EncodeEnds s (encoded s) := by
  have hframe := encodeFrame_encoded s
  rw [encoded_term hd] at hframe ⊢
  refine ⟨?_, rfl, hframe, unspecifiedFrom_deliver (appended [0#8] s)⟩
  rw [result_deliver (s := appended [0#8] s) fun _ => writeList_isSome h.written, emitted_appended,
    pendingBlocks_of_done hd]
  rfl

/-- A step on the way: the end that the run has after the block is the end that it has before it. -/
theorem EncodeEnds.before_block {s u : State} (h : Encoding s) (hd : s.fdone = false)
    (he : EncodeEnds (encoded s) u) : EncodeEnds s u := by
  obtain ⟨-, -, hbytes⟩ := h.after_block hd
  refine ⟨?_, he.status, (encodeFrame_encoded s).trans he.frame, he.unspecified⟩
  rw [he.result, ← List.append_assoc, hbytes, List.append_assoc]

theorem EncodeEnds.held {s u : State} (h : Encoding s) (he : EncodeEnds s u) (k : Nat) : steps k u = .next u := by
  refine steps_held ?_ (by simp [isBusy, he.status]) k
  rw [he.frame]
  exact h.silent

/-- The run from any place on: the pending blocks, then the terminator; after that the core holds. -/
theorem Encoding.run {s : State} (h : Encoding s) :
    ∃ u, EncodeEnds s u ∧ ∀ k, blocksLeft s + 1 ≤ k → steps k s = .next u := by
  induction hn : blocksLeft s using Nat.strong_induction_on generalizing s with
  | _ n ih =>
    subst hn
    cases hd : s.fdone with
    | true =>
      have he := h.after_term hd
      refine ⟨_, he, fun k hk => ?_⟩
      obtain ⟨k, rfl⟩ := Nat.exists_eq_add_of_le' (Nat.le_of_add_left_le hk)
      exact steps_succ_next.2 ⟨_, h.step_encoded, he.held h k⟩
    | false =>
      obtain ⟨hnext, hless, -⟩ := h.after_block hd
      obtain ⟨u, he, hu⟩ := ih _ hless hnext rfl
      refine ⟨u, he.before_block h hd, fun k hk => ?_⟩
      obtain ⟨k, rfl⟩ := Nat.exists_eq_add_of_le' (Nat.le_of_add_left_le hk)
      exact steps_succ_next.2 ⟨_, h.step_encoded, hu k (by omega)⟩

/-- R84: at its start ENCODE has the whole of `OBUF` for the frame. -/
theorem encodeSound_startEncode {s : State} (hl : s.ilen ≤ s.cfg.nmax) : EncodeSound (startEncode s) where
  ilen_le := hl
  fp_le := Nat.zero_le _
  room := by
    by_cases h0 : s.ilen = 0
    · have hfmax := le_fmax s.cfg
      simp [h0]
      omega
    · simpa [h0] using encodeRoom_le_fmax hl h0

theorem encoding_startEncode {s : State} (hh : s.host = []) (hl : s.ilen ≤ s.cfg.nmax) : Encoding (startEncode s) :=
  ⟨rfl, hh, encodeSound_startEncode hl, fun _ hi => absurd hi (Nat.not_lt_zero _)⟩

/-- Settles O26: the run from the start, where nothing is written and the pending blocks are the payload's. -/
theorem encodeDeliversFrame : Obligations.EncodeDeliversFrame := by
  intro s hb hh hl
  obtain ⟨u, he, hu⟩ := (encoding_startEncode hh hl).run
  have hblocks : pendingBlocks (startEncode s) = blocks (operand s) := pendingBlocks_start rfl rfl
  have hresult : result u = enc (operand s) := by
    rw [he.result, hblocks]
    rfl
  have holen : u.olen = (enc (operand s)).length := by
    rw [← hresult]
    simp [result]
  have hframe := he.frame
  have hbound : blocksLeft (startEncode s) ≤ s.ilen + 1 := blocksLeft_le _
  refine ⟨startEncode s, u, execEncode_next.2 ⟨hb, hl, rfl⟩, fun k hk => hu k (by omega), hresult, holen, he.status,
    ?_, ?_, ?_, ?_, ?_, ?_, he.unspecified⟩ <;> rw [hframe]
  · rfl
  · rfl
  · exact ⟨rfl, rfl, rfl, fun _ => rfl⟩
  · rfl
  · exact hh
  · rfl

end Sys2Proof.Machine

/-! ## The decoder over byte sequences (R91, R98, R101, R108 to R112): the payload of a list of blocks, the round trip -/

namespace Sys2Proof.Machine

/-! ### The payload of a list of blocks (R101) -/

/-- Is a separator owed behind these blocks if another one follows? It is what `pend` holds on the registers (R22, R100). -/
def owes (bs : List Block) : Bool := bs.getLast?.any fun b => isShort b.n

@[simp] theorem owes_nil : owes [] = false := rfl

@[simp] theorem owes_concat (bs : List Block) (b : Block) : owes (bs ++ [b]) = isShort b.n := by simp [owes]

theorem owes_cons {bs : List Block} (b : Block) (h : bs ≠ []) : owes (b :: bs) = owes bs := by
  rw [← List.singleton_append, owes, List.getLast?_append_of_ne_nil _ h, owes]

/-- The payload grows by the separator owed and the data of what follows. -/
theorem payloadOf_append (bs : List Block) {cs : List Block} (h : cs ≠ []) :
    payloadOf (bs ++ cs) = payloadOf bs ++ (if owes bs then [0#8] else []) ++ payloadOf cs := by
  induction bs with
  | nil => simp
  | cons b bs ih =>
    cases bs with
    | nil =>
      obtain ⟨c, cs, rfl⟩ := List.exists_cons_of_ne_nil h
      simp [payloadOf_cons_cons, owes, isShort]
    | cons b' bs =>
      rw [owes_cons b (List.cons_ne_nil b' bs), List.cons_append, List.cons_append, payloadOf_cons_cons,
        ← List.cons_append, ih, payloadOf_cons_cons]
      simp only [List.append_assoc]

theorem payloadOf_concat (bs : List Block) (b : Block) :
    payloadOf (bs ++ [b]) = payloadOf bs ++ ((if owes bs then [0#8] else []) ++ b.data) := by
  rw [payloadOf_append bs (List.cons_ne_nil b []), payloadOf_single, List.append_assoc]

/-- Settles O43, block by block; the next block's index is one less in the rest of the list. -/
theorem impliedSeparator : Obligations.ImpliedSeparator := by
  intro bs
  induction bs with
  | nil => rfl
  | cons b bs ih =>
    rw [List.mapIdx_cons, List.flatten_cons]
    cases bs with
    | nil => simp
    | cons b' bs =>
      rw [payloadOf_cons_cons, ih]
      simp

/-! ### The decoder on serialised blocks -/

theorem dec_of_parse {f : List Byte} {bs : List Block} (h : parse f = .ok bs) : dec f = .ok (payloadOf bs) := by
  rw [dec, h]

theorem dec_eq_ok_iff {f v : List Byte} : dec f = .ok v ↔ ∃ bs, parse f = .ok bs ∧ payloadOf bs = v := by
  cases hp : parse f <;> simp [dec, hp]

theorem dec_eq_fail_iff {f : List Byte} {cause : Cause} {pos : Nat} :
    dec f = .fail cause pos ↔ parse f = .fail cause pos := by
  cases hp : parse f <;> simp [dec, hp]

/-- R93: with no byte left the parse ends successfully. -/
theorem parseGo_exhausted (f : List Byte) (k : Nat) (acc : List Block) : parseGo f (k + 1) f.length acc = .ok acc := by
  simp [parseGo_succ]

/-- R93, R97: one block that fills the input. -/
theorem parse_single {b : Block} (hn : b.n = b.data.length + 1) (h255 : b.n ≤ 255) :
    parse (BitVec.ofNat 8 b.n :: b.data) = .ok [b] := by
  have hlen : (BitVec.ofNat 8 b.n :: b.data).length = b.n := hn.symm
  have hblock := parseGo_block hn h255 [] [] b.n []
  simp only [List.nil_append, List.append_nil, List.length_nil, Nat.zero_add] at hblock
  have hend := parseGo_exhausted (BitVec.ofNat 8 b.n :: b.data) b.data.length [b]
  rw [hlen, ← hn] at hend
  rw [parse, hlen, hblock, hend]

/-- Settles O45: the length byte of `d` is right, and the parser asks for no more. -/
theorem dataBytesNotInspected : Obligations.DataBytesNotInspected := by
  intro d hd
  have hterm : parse (ser [⟨d.length + 1, d⟩] ++ [0#8]) = .ok [⟨d.length + 1, d⟩] := parse_ser (by simp; omega)
  refine ⟨dec_of_parse (parse_single (b := ⟨d.length + 1, d⟩) rfl (Nat.succ_le_succ hd)), ?_⟩
  simpa [ser_cons] using dec_of_parse hterm

/-- Settles O52: a further empty block behind a full block adds nothing to the payload. -/
theorem decoderNotInjective : Obligations.DecoderNotInjective := by
  refine ⟨by decide, fun d hd => ?_⟩
  have hone : parse (ser [⟨255, d⟩] ++ [0#8]) = .ok [⟨255, d⟩] := parse_ser (by simp [hd])
  have htwo : parse (ser [⟨255, d⟩, ⟨1, []⟩] ++ [0#8]) = .ok [⟨255, d⟩, ⟨1, []⟩] := parse_ser (by simp [hd])
  have hpayload : payloadOf [⟨255, d⟩, ⟨1, []⟩] = d := by simp [payloadOf_cons_cons]
  refine ⟨by simpa [ser_cons] using dec_of_parse hone, ?_⟩
  have hdec := dec_of_parse htwo
  rw [hpayload] at hdec
  simpa [ser_cons] using hdec

/-! ### No more is decoded than read (R109) -/

/-- A block's length byte pays for the separator owed behind it: with one owed, the payload is no longer than what has
been read, and without it shorter. -/
theorem parseGo_payload_length {f : List Byte} {k c : Nat} {acc bs : List Block} (hc : c ≤ f.length)
    (hread : (payloadOf acc).length ≤ c - 1) (howed : (payloadOf acc).length + (owes acc).toNat ≤ c)
    (hk : f.length - c < k) (h : parseGo f k c acc = .ok bs) : (payloadOf bs).length ≤ f.length - 1 := by
  induction k generalizing c acc with
  | zero => omega
  | succ k ih =>
    rw [parseGo_succ] at h
    generalize hn : (f.getD c 0#8).toNat = n at h
    split_ifs at h with hend hterm hzero hshort
    · injection h with h
      subst h hend
      exact hread
    · injection h with h
      subst h
      omega
    · have hlen : (payloadOf (acc ++ [⟨n, (f.drop (c + 1)).take (n - 1)⟩])).length =
          (payloadOf acc).length + (owes acc).toNat + (n - 1) := by
        rw [payloadOf_concat, List.length_append, List.length_append, List.length_take, List.length_drop]
        cases owes acc <;> simp <;> omega
      have howes := Bool.toNat_le (owes (acc ++ [⟨n, (f.drop (c + 1)).take (n - 1)⟩]))
      exact ih (by omega) (by omega) (by omega) (by omega) h

/-- Settles O51: nothing is read and nothing decoded at the start. -/
theorem decodedLengthBound : Obligations.DecodedLengthBound := by
  intro f v h
  obtain ⟨bs, hparse, rfl⟩ := dec_eq_ok_iff.1 h
  exact parseGo_payload_length (Nat.zero_le _) (Nat.le_refl _) (Nat.le_refl _) (Nat.lt_succ_self _) hparse

/-! ### The round trip (R110 to R112) -/

/-- Settles O48: the framer's blocks are well-formed. -/
theorem parserUndoesWriter : Obligations.ParserUndoesWriter := fun p => parse_ser_of_wf (blocks_wf p)

theorem chunk_ne_nil (r : List Byte) : chunk r ≠ [] := by
  rcases Nat.lt_or_ge 254 r.length with hgt | hle
  · simp [chunk_of_gt hgt]
  · simp [chunk_of_le hle]

theorem losesSeparator_drop {r : List Byte} (h : 254 < r.length) : losesSeparator (r.drop 254) = losesSeparator r := by
  rw [Bool.eq_iff_iff]
  simp only [losesSeparator, List.length_drop, Bool.and_eq_true, decide_eq_true_eq]
  omega

theorem losesSeparator_of_le {r : List Byte} (h : r.length ≤ 254) : losesSeparator r = !isShort (r.length + 1) := by
  rw [Bool.eq_iff_iff]
  simp only [losesSeparator, isShort, Bool.and_eq_true, Bool.not_eq_true', decide_eq_true_eq, decide_eq_false_iff_not]
  omega

/-- The chunks of a run carry the run, and owe its separator unless the last of them is full (R76, R87). -/
theorem chunk_payload (r : List Byte) : payloadOf (chunk r) = r ∧ owes (chunk r) = !losesSeparator r := by
  induction hl : r.length using Nat.strong_induction_on generalizing r with
  | _ l ih =>
    subst hl
    rcases Nat.lt_or_ge 254 r.length with hgt | hle
    · obtain ⟨hpay, howes⟩ := ih (r.drop 254).length (by simp; omega) (r.drop 254) rfl
      rw [chunk_of_gt hgt, owes_cons _ (chunk_ne_nil _), howes, losesSeparator_drop hgt, ← List.singleton_append,
        payloadOf_append _ (chunk_ne_nil _), hpay]
      simp [owes, isShort]
    · rw [chunk_of_le hle, losesSeparator_of_le hle, Bool.not_not]
      exact ⟨rfl, rfl⟩

/-- The decoded runs: each separator comes back where the run before it owes one. -/
theorem payloadOf_runs (rs : List (List Byte)) : payloadOf (rs.flatMap chunk) = joinKept rs := by
  induction rs with
  | nil => rfl
  | cons r rs ih =>
    obtain ⟨hpay, howes⟩ := chunk_payload r
    cases rs with
    | nil => simp [hpay, joinKept]
    | cons r' rs =>
      have hne : (r' :: rs).flatMap chunk ≠ [] := by simp [chunk_ne_nil]
      rw [List.flatMap_cons, payloadOf_append _ hne, ih, hpay, howes, joinKept]
      cases losesSeparator r <;> rfl

theorem payloadOf_blocks (p : List Byte) : payloadOf (blocks p) = withoutLost p := by
  by_cases hp : p = []
  · subst hp
    rfl
  · rw [blocks_of_ne_nil hp, payloadOf_runs, withoutLost]

theorem dec_enc (p : List Byte) : dec (enc p) = .ok (withoutLost p) := by
  rw [dec_of_parse (parserUndoesWriter p), payloadOf_blocks]

/-- Settles O50: the blocks of `dec_enc` are those of the runs, and joined they keep what is not lost. -/
theorem roundTripOutsideDomain : Obligations.RoundTripOutsideDomain := dec_enc

/-- R8: a payload is its runs, separated. -/
theorem intercalate_split0 (p : List Byte) : [0#8].intercalate (split0 p) = p := by
  induction p with
  | nil => rfl
  | cons b p ih =>
    obtain ⟨r, rs, hs⟩ := List.exists_cons_of_ne_nil (split0_ne_nil p)
    by_cases hb : b = 0#8
    · subst hb
      rw [split0_zero, hs, List.intercalate_cons_cons, ← hs, ih]
      rfl
    · rw [split0_nonzero hb hs]
      rw [hs] at ih
      cases rs with
      | nil => simpa using ih
      | cons r' rs =>
        rw [List.intercalate_cons_cons] at ih ⊢
        simpa using ih

theorem length_joinKept_le (rs : List (List Byte)) : (joinKept rs).length ≤ ([0#8].intercalate rs).length := by
  induction rs with
  | nil => exact Nat.le_refl _
  | cons r rs ih =>
    cases rs with
    | nil => simp [joinKept]
    | cons r' rs =>
      have hsep : (if losesSeparator r then [] else [0#8]).length ≤ 1 := by split <;> simp
      rw [joinKept, List.intercalate_cons_cons]
      simp only [List.length_append, List.length_singleton]
      omega

/-- Nothing is lost exactly if no separator is: what is lost once is not made up for. -/
theorem joinKept_eq_intercalate_iff (rs : List (List Byte)) :
    joinKept rs = [0#8].intercalate rs ↔ rs.dropLast.all (fun r => !losesSeparator r) = true := by
  induction rs with
  | nil => simp [joinKept]
  | cons r rs ih =>
    cases rs with
    | nil => simp [joinKept]
    | cons r' rs =>
      rw [joinKept, List.intercalate_cons_cons, List.dropLast_cons_cons, List.all_cons]
      cases losesSeparator r with
      | false => simpa using ih
      | true =>
        have hshort : joinKept (r' :: rs) ≠ 0#8 :: [0#8].intercalate (r' :: rs) := fun h => by
          have hle := length_joinKept_le (r' :: rs)
          rw [h, List.length_cons] at hle
          omega
        simpa using hshort

theorem withoutLost_eq_iff (p : List Byte) : withoutLost p = p ↔ roundTripSafe p = true := by
  have h := joinKept_eq_intercalate_iff (split0 p)
  rwa [intercalate_split0] at h

/-- A run with a separator behind it is shorter than the payload. -/
theorem length_lt_of_mem_dropLast_split0 {p r : List Byte} (h : r ∈ (split0 p).dropLast) : r.length < p.length := by
  have hcount : 1 ≤ (split0 p).dropLast.length := List.length_pos_of_mem h
  have hrun : r.length ≤ ((split0 p).map List.length).sum :=
    List.le_sum_of_mem (List.mem_map_of_mem (List.mem_of_mem_dropLast h))
  have hsum := length_split0 p
  rw [List.length_dropLast] at hcount
  omega

theorem losesSeparator_of_lt {r : List Byte} (h : r.length < 254) : losesSeparator r = false := by
  rw [losesSeparator_of_le (by omega), isShort, decide_eq_true (by omega), Bool.not_true]

/-- The runs of an all-zero payload are empty. -/
theorem split0_run_of_all_zero {p : List Byte} (h : ∀ b ∈ p, b = 0#8) : ∀ r ∈ split0 p, r = [] := by
  induction p with
  | nil => simp [split0]
  | cons b p ih =>
    obtain ⟨rfl, hp⟩ := List.forall_mem_cons.1 h
    rw [split0_zero]
    exact List.forall_mem_cons.2 ⟨rfl, ih hp⟩

theorem roundTripSafe_of_forall {p : List Byte} (h : ∀ r ∈ (split0 p).dropLast, losesSeparator r = false) :
    roundTripSafe p = true := by
  simpa [roundTripSafe] using h

/-- Settles O49: the decoded payload by `dec_enc`; a lost separator takes 254 bytes before it, which neither a short nor an
all-zero payload has, and a zero-free one has no separator. -/
theorem roundTripExactDomain : Obligations.RoundTripExactDomain := by
  intro p
  refine ⟨?_, fun hlen => ?_, fun hfree => ?_, fun hzero => ?_⟩
  · rw [dec_enc, Res.ok.injEq, withoutLost_eq_iff]
  · refine roundTripSafe_of_forall fun r hr => losesSeparator_of_lt ?_
    have := length_lt_of_mem_dropLast_split0 hr
    omega
  · refine roundTripSafe_of_forall fun r hr => ?_
    simp [split0_of_zero_free hfree] at hr
  · refine roundTripSafe_of_forall fun r hr => ?_
    rw [split0_run_of_all_zero hzero r (List.mem_of_mem_dropLast hr)]
    rfl

end Sys2Proof.Machine

/-! ## DECODE on the registers (R92 to R105, R122): the items of a frame, and that a run delivers what `dec` gives -/

namespace Sys2Proof.Machine

/-! ### The length bytes -/

/-- The item `i` is a block whose length byte is `n`: LEN_FULL or LEN_BLK (R50). -/
def LengthItem (i : Instr) (n : Nat) : Prop := i = .lenFull ∧ n = 255 ∨ ∃ b : Byte, i = .lenBlk b ∧ n = b.toNat

theorem lengthItem_lenFull : LengthItem .lenFull 255 := .inl ⟨rfl, rfl⟩

theorem lengthItem_lenBlk (b : Byte) : LengthItem (.lenBlk b) b.toNat := .inr ⟨b, rfl, rfl⟩

theorem LengthItem.unique {i : Instr} {n n' : Nat} (h : LengthItem i n) (h' : LengthItem i n') : n = n' := by
  rcases h with ⟨rfl, rfl⟩ | ⟨b, rfl, rfl⟩ <;> rcases h' with ⟨hi, rfl⟩ | ⟨b', hi, rfl⟩
  · rfl
  · exact nomatch hi
  · exact nomatch hi
  · injection hi with hb
    rw [hb]

theorem LengthItem.le {i : Instr} {n : Nat} (h : LengthItem i n) : n ≤ 255 := by
  rcases h with ⟨-, rfl⟩ | ⟨b, -, rfl⟩
  · exact Nat.le_refl _
  · exact Nat.le_of_lt_succ b.isLt

theorem LengthItem.exec_next {i : Instr} {n : Nat} (h : LengthItem i n) {s t : State} :
    exec i s = .next t ↔ s.status = .busy .decode ∧ s.rp < s.ilen ∧ lengthByte n s = .next t := by
  rcases h with ⟨rfl, rfl⟩ | ⟨b, rfl, rfl⟩
  · exact execLenFull_next
  · exact execLenBlk_next

/-- A non-zero byte at the cursor is the length byte of the item fetched. -/
theorem lengthItem_fetchItem {s : State} (h : headerByte s ≠ 0#8) : LengthItem (fetchItem s) (headerByte s).toNat := by
  rcases fetchItem_cases s with ⟨h0, -⟩ | ⟨h0, -⟩ | ⟨-, ⟨hi, hn⟩ | hi⟩
  · exact absurd h0 h
  · exact absurd h0 h
  · rw [hi, hn]
    exact lengthItem_lenFull
  · rw [hi]
    exact lengthItem_lenBlk _

/-- What a length byte can do: its block is cut short and DECODE fails, or it is accepted (R96, R97). -/
theorem LengthItem.cases {i : Instr} {n : Nat} (hn : LengthItem i n) {s t : State} (h : exec i s = .next t) :
    s.status = .busy .decode ∧
      ((∃ cause, t = raiseFailure cause s.rp s) ∨ ∃ n, LengthItem i n ∧ t = accepted (blockAtCursor n s) s) := by
  obtain ⟨hs, -, h⟩ := hn.exec_next.1 h
  rcases lengthByte_next.1 h with ⟨-, ht⟩ | ⟨-, -, -, ht⟩
  · exact ⟨hs, .inl ⟨_, ht⟩⟩
  · exact ⟨hs, .inr ⟨n, hn, ht⟩⟩

/-- What an item can do, while DECODE runs: end the parse, fail at its own index, or have its block accepted. -/
theorem item_cases {i : Instr} {s t : State} (hi : isCommand i = false) (h : exec i s = .next t) :
    s.status = .busy .decode ∧ (t = deliver s ∨ (∃ cause, t = raiseFailure cause s.rp s) ∨
      ∃ n, LengthItem i n ∧ t = accepted (blockAtCursor n s) s) := by
  cases i with
  | size | encode | decode | cmdReserved => exact nomatch hi
  | lenTerm =>
    obtain ⟨hs, -, ht⟩ := execLenTerm_next.1 h
    exact ⟨hs, .inl ht⟩
  | lenZeroIllegal =>
    obtain ⟨hs, -, ht⟩ := execLenZeroIllegal_next.1 h
    exact ⟨hs, .inr (.inl ⟨_, ht⟩)⟩
  | lenFull => exact (lengthItem_lenFull.cases h).imp_right .inr
  | lenBlk b => exact ((lengthItem_lenBlk b).cases h).imp_right .inr

/-! ### The ends of the parse (R93, R94) -/

theorem coreStep_exhausted {s : State} (hs : s.status = .busy .decode) (hr : s.rp = s.ilen) :
    coreStep s = .next (deliver s) :=
  coreStep_next.2 (.inr (.inr (.inr ⟨hs, parseNext_next.2 (.inl ⟨hr, rfl⟩)⟩)))

/-- Settles O35: the delivery keeps what is written below `wp`. -/
theorem exhaustedInputEndsParse : Obligations.ExhaustedInputEndsParse := by
  refine ⟨fun s hs hr hw => ?_, by decide, by decide⟩
  exact ⟨_, coreStep_exhausted hs hr, rfl, fun a ha => readObuf_deliver ha (hw a ha), unspecifiedFrom_deliver s⟩

/-- R50: a zero byte at the cursor is LEN_TERM or LEN_ZERO_ILLEGAL by its position. -/
theorem fetchItem_zero {s : State} (h : readIbuf s s.rp = 0#8) :
    fetchItem s = if s.rp + 1 = s.ilen then .lenTerm else .lenZeroIllegal := by
  simp [fetchItem, headerByte, decodeLen, atLastByte, h]

/-- Settles O36: LEN_TERM is a delivery too, and the item that a zero at the last index is. -/
theorem terminatorEndsParse : Obligations.TerminatorEndsParse := by
  refine ⟨by decide, by decide, fun s hs hr hw => ?_⟩
  have hexec : exec .lenTerm s = .next (deliver s) := execLenTerm_next.2 ⟨hs, hr, rfl⟩
  refine ⟨_, hexec, rfl, fun a ha => readObuf_deliver ha (hw a ha), unspecifiedFrom_deliver s, fun h0 hf => ?_⟩
  rw [coreStep_eq_exec_fetchItem hs (by omega) hf, fetchItem_zero h0, if_pos hr, hexec]

/-! ### The failures (R95, R96, R122) -/

theorem unspecifiedFrom_raiseFailure (cause : Cause) (pos : Nat) (s : State) :
    UnspecifiedFrom 0 (raiseFailure cause pos s) := fun _ _ => rfl

/-- Settles O37: the state answered is that of failure entry. -/
theorem zeroMidFrameFails : Obligations.ZeroMidFrameFails := by
  refine ⟨by decide, fun s hs hr => ?_⟩
  have hexec := execLenZeroIllegal_next.2 ⟨hs, hr, rfl⟩
  refine ⟨_, hexec, rfl, unspecifiedFrom_raiseFailure _ _ s, rfl, rfl, fun _ => rfl, fun h0 hf => ?_⟩
  rw [coreStep_eq_exec_fetchItem hs (by omega) hf, fetchItem_zero h0, if_neg (by omega), hexec]

/-- R97: a length byte 1 asks for no data byte. -/
theorem lengthByte_one_running {s t : State} (h : lengthByte 1 s = .next t) : t.status = s.status := by
  rcases lengthByte_next.1 h with ⟨hc, -⟩ | ⟨-, -, -, rfl⟩
  · exact absurd hc (Nat.not_lt_zero _)
  · rfl

/-- Settles O38: the test of R96 fails before any byte of the block is copied. -/
theorem truncatedBlockFails : Obligations.TruncatedBlockFails := by
  refine ⟨by decide, by decide, fun s t h => ?_, fun i n s hi hs hr hc => ?_⟩
  · obtain ⟨hs, -, h⟩ := (lengthItem_lenBlk 1#8).exec_next.1 h
    rw [lengthByte_one_running h, hs]
    exact nofun
  · have hitem : LengthItem i n := hi
    have hbyte : lengthByte n s = .next (raiseFailure .truncatedFrame s.rp s) := lengthByte_next.2 (.inl ⟨hc, rfl⟩)
    refine ⟨_, hitem.exec_next.2 ⟨hs, hr, hbyte⟩, rfl, unspecifiedFrom_raiseFailure _ _ s, rfl, rfl, fun _ => rfl,
      fun hn h1 hf => ?_⟩
    have hval : (headerByte s).toNat = n := by rw [headerByte, hn, toNat_lengthByte hitem.le]
    have h0 : headerByte s ≠ 0#8 := BitVec.toNat_ne.2 (by rw [hval]; exact Nat.ne_of_gt h1)
    rw [coreStep_eq_exec_fetchItem hs hr hf]
    exact (lengthItem_fetchItem h0).exec_next.2 ⟨hs, hr, hval.symm ▸ hbyte⟩

/-- R105: DECODE fails at its cursor, and failure entry leaves nothing of `OBUF` specified. -/
theorem advance_fails {s : State} (hs : s.status ≠ .doneFail) (h : (advance s).status = .doneFail) :
    ∃ cause, advance s = raiseFailure cause s.rp s := by
  have hd : s.status = .busy .decode := (advance_doneFail h).resolve_left hs
  rw [advance_decode hd] at h ⊢
  rcases parsed_cases s with hp | hp | ⟨n, -, -, hp⟩
  · rw [hp] at h
    exact nomatch h
  · exact hp
  · rw [hp] at h
    exact absurd h hs

/-- Settles O44: only the core's turn can enter DONE_FAIL, and there it is failure entry. -/
theorem failureLeavesNoPartialResult : Obligations.FailureLeavesNoPartialResult := by
  intro s t hstep hs ht
  cases moved_of_step hstep with
  | wrIbuf | wrIlen | wrSarg | read => exact absurd ht hs
  | size | encode | decode | rst => exact nomatch ht
  | @core rest =>
    obtain ⟨cause, ha⟩ := advance_fails (s := { s with host := rest }) hs ht
    rw [ha]
    exact ⟨rfl, unspecifiedFrom_raiseFailure _ _ _, causeErr_ne_none cause, rfl, rfl, rfl, rfl, fun _ => rfl⟩

/-! ### An accepted block (R97, R100) -/

/-- `t` is `s` with the block of length byte `n` at the cursor accepted: the separator owed before it and its data
written at `wp`, and a separator owed after it if it is short. -/
structure BlockAccepted (n : Nat) (s t : State) : Prop where
  state : t = { s with rp := s.rp + n, wp := s.wp + s.pend.toNat + (n - 1), pend := isShort n, obuf := t.obuf }
  separator : s.pend = true → readObuf t s.wp = 0#8
  data : ∀ j, j < n - 1 → readObuf t (s.wp + s.pend.toNat + j) = readIbuf s (s.rp + 1 + j)
  outside : ∀ a, a < s.wp ∨ s.wp + s.pend.toNat + (n - 1) ≤ a → readObuf t a = readObuf s a

/-- A read of `OBUF` after a block is accepted sees what was written for it. -/
theorem readObuf_accepted (b : BlockRef) (s : State) (a : Nat) :
    readObuf (accepted b s) a = readObuf (appended (unstuffBytes s b) s) a := readObuf_congr rfl rfl a

theorem length_unstuffBytes_atCursor (n : Nat) (s : State) :
    (unstuffBytes s (blockAtCursor n s)).length = s.pend.toNat + (n - 1) := unstuffBytes_length s _

/-- Behind the separator owed come the data (R100). -/
theorem unstuffBytes_getElem (b : BlockRef) (s : State) {j : Nat} (h : s.pend.toNat + j < (unstuffBytes s b).length) :
    (unstuffBytes s b)[s.pend.toNat + j] = readIbuf s (b.start + j) := by
  have howed : (if s.pend then [0#8] else []).length = s.pend.toNat := by cases s.pend <;> rfl
  simp only [unstuffBytes, List.getElem_append_right (Nat.le_trans (Nat.le_of_eq howed) (Nat.le_add_right _ j)), howed,
    Nat.add_sub_cancel_left, readSlice_getElem]

theorem blockAccepted_accepted (n : Nat) (s : State) : BlockAccepted n s (accepted (blockAtCursor n s) s) := by
  have hlen := length_unstuffBytes_atCursor n s
  refine ⟨?_, fun hp => ?_, fun j hj => ?_, fun a ha => ?_⟩
  · simp only [accepted, closeBlock, appended, hlen, Nat.add_assoc]
    rfl
  · rw [readObuf_accepted]
    refine (readObuf_appended_inside (j := 0) ?_).trans ?_
    · rw [hlen, hp]
      exact Nat.lt_add_right _ Nat.one_pos
    · simp [unstuffBytes, hp]
  · rw [readObuf_accepted, Nat.add_assoc, readObuf_appended_inside (by omega), unstuffBytes_getElem]
    rfl
  · rw [readObuf_accepted, readObuf_appended_outside (by omega)]

/-- R97: a block that lies in the operand and whose bytes fit is accepted. -/
theorem LengthItem.accepts {i : Instr} {n : Nat} (h : LengthItem i n) {s : State} (hs : s.status = .busy .decode)
    (h1 : 1 ≤ n) (hin : s.rp + n ≤ s.ilen) (hl : s.ilen ≤ fmax s.cfg)
    (hroom : s.wp + s.pend.toNat + (n - 1) ≤ fmax s.cfg) :
    ∃ t, exec i s = .next t ∧ BlockAccepted n s t := by
  have hlen := length_unstuffBytes_atCursor n s
  have hcount : dataCount n = n - 1 := rfl
  exact ⟨_, h.exec_next.2 ⟨hs, by omega, lengthByte_next.2 (.inr ⟨by omega, by omega, by omega, rfl⟩)⟩,
    blockAccepted_accepted n s⟩

/-- Settles O39: a full block owes nothing. -/
theorem fullBlockAccepted : Obligations.FullBlockAccepted := by
  intro s hs hin hl hroom
  obtain ⟨t, ht, hstate, hsep, hdata, hout⟩ := lengthItem_lenFull.accepts hs (by omega) hin hl hroom
  exact ⟨t, ht, hstate, hsep, hdata, hout⟩

/-- Settles O40: a short block owes a separator. -/
theorem shortBlockAccepted : Obligations.ShortBlockAccepted := by
  rintro b n s rfl h1 h254 hs hin hl hroom
  obtain ⟨t, ht, hstate, hsep, hdata, hout⟩ := (lengthItem_lenBlk b).accepts hs h1 hin hl hroom
  have hshort : isShort b.toNat = true := decide_eq_true (Nat.lt_succ_of_le h254)
  rw [hshort] at hstate
  exact ⟨t, ht, hstate, hsep, hdata, hout⟩

/-- Settles O41, outcome by outcome. -/
theorem itemFrame : Obligations.ItemFrame := by
  intro i s t hi h
  obtain ⟨hs, rfl | ⟨cause, rfl⟩ | ⟨n, hn, rfl⟩⟩ := item_cases hi h
  · exact ⟨⟨rfl, rfl, rfl, fun _ => rfl⟩, rfl, rfl, rfl, rfl, rfl, nofun, fun _ _ => readObuf_deliver⟩
  · exact ⟨⟨rfl, rfl, rfl, fun _ => rfl⟩, rfl, rfl, rfl, rfl, rfl, nofun, nofun⟩
  · refine ⟨⟨rfl, rfl, rfl, fun _ => rfl⟩, rfl, rfl, rfl, rfl, rfl, fun _ => ⟨rfl, rfl, rfl, fun n' hn' a ha => ?_⟩,
      fun ht => nomatch hs.symm.trans ht⟩
    rw [← hn.unique hn'] at ha
    rw [readObuf_accepted, readObuf_appended_outside ha]

/-! ### A whole run of DECODE (R99, R103, R104) -/

theorem SameOperands.trans {s t u : State} (h : SameOperands s t) (h' : SameOperands t u) : SameOperands s u := by
  obtain ⟨hcfg, hilen, hsarg, hread⟩ := h
  obtain ⟨hcfg', hilen', hsarg', hread'⟩ := h'
  exact ⟨hcfg'.trans hcfg, hilen'.trans hilen, hsarg'.trans hsarg, fun a => (hread' a).trans (hread a)⟩

theorem TurnFrame.trans {s t u : State} (h : TurnFrame s t) (h' : TurnFrame t u) : TurnFrame s u :=
  ⟨h.operands.trans h'.operands, h'.host.trans h.host, h'.got.trans h.got⟩

/-- The byte that the parser reads of the operand is the one at the cursor. -/
theorem operand_getD {s : State} (h : s.rp < s.ilen) : (operand s).getD s.rp 0#8 = headerByte s := by
  have hlen : s.rp < (operand s).length := by simpa using h
  rw [List.getD_eq_getElem _ _ hlen]
  simp [operand, headerByte]

/-- The data that the parser takes of the operand are those of the block at the cursor. -/
theorem operand_take_drop {s : State} {n : Nat} (h : s.rp + 1 + (n - 1) ≤ s.ilen) :
    ((operand s).drop (s.rp + 1)).take (n - 1) = readSlice s (s.rp + 1) (n - 1) := by
  refine List.ext_getElem (by simp; omega) fun j hj hj' => ?_
  simp [operand]

/-- One call of the parser on the operand, by the byte at the cursor: the cases are those of `parsed`. -/
theorem parseGo_operand {s : State} (h : s.rp ≤ s.ilen) (k : Nat) (acc : List Block) :
    parseGo (operand s) (k + 1) s.rp acc =
      if s.rp = s.ilen then .ok acc
      else if headerByte s = 0#8 then
        if s.rp + 1 = s.ilen then .ok acc else .fail .invalidLengthByte s.rp
      else if dataCount (headerByte s).toNat > s.ilen - (s.rp + 1) then .fail .truncatedFrame s.rp
      else parseGo (operand s) k (s.rp + (headerByte s).toNat)
        (acc ++ [blockAt s (blockAtCursor (headerByte s).toNat s)]) := by
  rw [parseGo_succ, operand_length]
  by_cases hr : s.rp = s.ilen
  · rw [if_pos hr, if_pos hr]
  have hzero : (headerByte s).toNat = 0 ↔ headerByte s = 0#8 := by
    rw [BitVec.toNat_eq]
    rfl
  have hlast : s.rp = s.ilen - 1 ↔ s.rp + 1 = s.ilen := by omega
  rw [if_neg hr, if_neg hr, operand_getD (by omega)]
  simp only [hzero, hlast]
  by_cases h0 : headerByte s = 0#8
  · by_cases hl : s.rp + 1 = s.ilen <;> simp [h0, hl]
  · simp only [h0, false_and, if_false]
    by_cases hc : dataCount (headerByte s).toNat > s.ilen - (s.rp + 1)
    · rw [if_pos hc]
      exact if_pos hc
    · have hcount : dataCount (headerByte s).toNat = (headerByte s).toNat - 1 := rfl
      rw [if_neg hc, operand_take_drop (by omega)]
      exact if_neg hc

/-- A running DECODE with no move of the host left that has accepted the blocks `acc`: their payload is written, `pend`
says what is owed behind them, no failure is recorded, and the bounds of R20 and R109 hold. -/
structure Decoding (s : State) (acc : List Block) : Prop where
  running : s.status = .busy .decode
  silent : s.host = []
  sound : DecodeSound s
  written : ∀ i, i < s.wp → (s.obuf.get? i).isSome = true
  payload : emitted s = payloadOf acc
  owed : s.pend = owes acc
  err : s.err = .none
  epos : s.epos = 0

/-- What the run leaves in `u` when the parse gives `r` (R104, R105). -/
def ParseDelivered (u : State) : Res (List Block) → Prop
  | .ok bs =>
    u.status = .doneOk ∧ u.err = .none ∧ u.epos = 0 ∧ result u = payloadOf bs ∧ UnspecifiedFrom u.olen u
  | .fail cause pos =>
    u.status = .doneFail ∧ u.err = causeErr cause ∧ u.epos = pos ∧ u.olen = 0 ∧ UnspecifiedFrom 0 u

/-- How the run that goes on from `s` ends: the state `u`, where the outcome `r` of the parse is delivered. -/
structure DecodeEnds (s u : State) (r : Res (List Block)) : Prop where
  delivered : ParseDelivered u r
  frame : TurnFrame s u
  sres : u.sres = s.sres

theorem Decoding.step_parsed {s : State} {acc : List Block} (h : Decoding s acc) : step s = .next (parsed s) := by
  obtain ⟨t, ht⟩ := h.sound.parseNext_answers h.running
  rw [step_noMove h.silent, ← parseNext_eq_parsed ht]
  exact coreStep_next.2 (.inr (.inr (.inr ⟨h.running, ht⟩)))

/-- The delivery of what has been written (R104). -/
theorem Decoding.ends_deliver {s : State} {acc : List Block} (h : Decoding s acc) :
    DecodeEnds s (deliver s) (.ok acc) where
  delivered := ⟨rfl, h.err, h.epos, (result_deliver h.written).trans h.payload, unspecifiedFrom_deliver s⟩
  frame := ⟨⟨rfl, rfl, rfl, fun _ => rfl⟩, rfl, rfl⟩
  sres := rfl

theorem decodeEnds_raiseFailure (cause : Cause) (pos : Nat) (s : State) :
    DecodeEnds s (raiseFailure cause pos s) (.fail cause pos) where
  delivered := ⟨rfl, rfl, rfl, rfl, unspecifiedFrom_raiseFailure cause pos s⟩
  frame := ⟨⟨rfl, rfl, rfl, fun _ => rfl⟩, rfl, rfl⟩
  sres := rfl

/-- An accepted block keeps the operation running, and its bytes in `OBUF` are what it adds to the payload. -/
theorem Decoding.after_accept {s : State} {acc : List Block} (h : Decoding s acc) {n : Nat} (hn : 1 ≤ n)
    (hin : s.rp + n ≤ s.ilen) :
    Decoding (accepted (blockAtCursor n s) s) (acc ++ [blockAt s (blockAtCursor n s)]) where
  running := h.running
  silent := h.silent
  sound := by
    have hlen := length_unstuffBytes_atCursor n s
    have hwp := h.sound.wp_le
    have hpend : (isShort n).toNat ≤ 1 := Bool.toNat_le _
    have hbound : s.wp + (unstuffBytes s (blockAtCursor n s)).length + (isShort n).toNat ≤ s.rp + n := by omega
    exact ⟨h.sound.ilen_le, hin, hbound⟩
  written := fun _ => writeList_isSome h.written
  payload := by
    rw [payloadOf_concat, ← h.payload, ← h.owed]
    exact emitted_appended _ s
  owed := (owes_concat acc (blockAt s (blockAtCursor n s))).symm
  err := h.err
  epos := h.epos

theorem operand_accepted (b : BlockRef) (s : State) : operand (accepted b s) = operand s := operand_congr rfl rfl rfl

/-- A turn of the run is a call of the parser: it ends both alike, or both go on behind the same block. -/
theorem Decoding.after_turn {s : State} {acc : List Block} (h : Decoding s acc) (k : Nat) :
    DecodeEnds s (parsed s) (parseGo (operand s) (k + 1) s.rp acc) ∨
      s.rp < (parsed s).rp ∧ ∃ b, Decoding (parsed s) (acc ++ [b]) ∧
        parseGo (operand s) (k + 1) s.rp acc = parseGo (operand (parsed s)) k (parsed s).rp (acc ++ [b]) := by
  rw [parseGo_operand h.sound.rp_le]
  unfold parsed
  split_ifs with hr h0 hl hc
  · exact .inl h.ends_deliver
  · exact .inl h.ends_deliver
  · exact .inl (decodeEnds_raiseFailure _ _ s)
  · exact .inl (decodeEnds_raiseFailure _ _ s)
  · obtain ⟨hn, hin⟩ := block_inside h0 hc
    refine .inr ⟨Nat.lt_add_of_pos_right hn, _, h.after_accept hn (hin (lt_of_le_of_ne h.sound.rp_le hr)), ?_⟩
    rw [operand_accepted]
    rfl

/-- What ends the run behind a turn of DECODE ends it before that turn. -/
theorem DecodeEnds.before_turn {s u : State} {r : Res (List Block)} (h : DecodeEnds (parsed s) u r) :
    DecodeEnds s u r := by
  obtain ⟨hframe, hsres⟩ := parsed_frame s
  exact ⟨h.delivered, hframe.trans h.frame, h.sres.trans hsres⟩

theorem ParseDelivered.not_busy {u : State} {r : Res (List Block)} (h : ParseDelivered u r) : isBusy u = false := by
  cases r with
  | ok bs =>
    obtain ⟨hs, -⟩ := h
    simp [isBusy, hs]
  | fail cause pos =>
    obtain ⟨hs, -⟩ := h
    simp [isBusy, hs]

/-- After the end the core holds. -/
theorem DecodeEnds.held {s u : State} {r : Res (List Block)} (h : DecodeEnds s u r) (hh : s.host = []) (j : Nat) :
    steps j u = .next u :=
  steps_held (h.frame.host.trans hh) h.delivered.not_busy j

/-- The run from any place on ends as the parser does from there, within as many steps as it makes calls (R99). -/
theorem Decoding.run {k : Nat} {s : State} {acc : List Block} (h : Decoding s acc) (hk : s.ilen - s.rp < k) :
    ∃ u, DecodeEnds s u (parseGo (operand s) k s.rp acc) ∧ ∀ j, k ≤ j → steps j s = .next u := by
  induction k generalizing s acc with
  | zero => omega
  | succ k ih =>
    have behind_turn {u : State} (hu : ∀ j, k ≤ j → steps j (parsed s) = .next u) :
        ∀ j, k + 1 ≤ j → steps j s = .next u := fun j hj => by
      obtain ⟨j, rfl⟩ := Nat.exists_eq_add_of_le' (Nat.le_of_add_left_le hj)
      exact steps_succ_next.2 ⟨_, h.step_parsed, hu j (Nat.le_of_succ_le_succ hj)⟩
    rcases h.after_turn k with hend | ⟨hrp, b, hnext, hcall⟩
    · exact ⟨_, hend, behind_turn fun j _ => hend.held h.silent j⟩
    · obtain ⟨⟨⟨-, hilen, -⟩, -, -⟩, -⟩ := parsed_frame s
      have hle := hnext.sound.rp_le
      obtain ⟨u, hend, hu⟩ := ih hnext (by omega)
      rw [hcall]
      exact ⟨u, hend.before_turn, behind_turn hu⟩

theorem decoding_startDecode {s : State} (hh : s.host = []) (hl : s.ilen ≤ fmax s.cfg) : Decoding (startDecode s) [] where
  running := rfl
  silent := hh
  sound := ⟨hl, Nat.zero_le _, Nat.le_refl _⟩
  written := fun _ hi => absurd hi (Nat.not_lt_zero _)
  payload := rfl
  owed := rfl
  err := rfl
  epos := rfl

/-- A whole DECODE ends as the parse of its operand does, within `ILEN + 1` steps. -/
theorem decode_run {s : State} (hh : s.host = []) (hl : s.ilen ≤ fmax s.cfg) :
    ∃ u, DecodeEnds (startDecode s) u (parse (operand s)) ∧
      ∀ k, s.ilen + 1 ≤ k → steps k (startDecode s) = .next u := by
  rw [parse, operand_length]
  exact (decoding_startDecode hh hl).run (Nat.lt_succ_self s.ilen)

/-- Settles O42: the run from the start, and `dec` is the payload of the parse or its failure (R103). -/
theorem decodeDeliversPayload : Obligations.DecodeDeliversPayload := by
  intro s hb hh hl
  obtain ⟨u, ⟨hdel, hframe, hsres⟩, hu⟩ := decode_run hh hl
  refine ⟨startDecode s, u, execDecode_next.2 ⟨hb, hl, rfl⟩, hu, fun v hv => ?_, fun cause pos hf => ?_, hframe.operands,
    hsres, hframe.host.trans hh, hframe.got⟩
  · obtain ⟨bs, hparse, rfl⟩ := dec_eq_ok_iff.1 hv
    rw [hparse] at hdel
    obtain ⟨hstatus, herr, hepos, hresult, hunspec⟩ := hdel
    have holen : u.olen = (payloadOf bs).length := by
      rw [← hresult]
      simp [result]
    exact ⟨hstatus, herr, hepos, hresult, holen, hunspec⟩
  · rw [dec_eq_fail_iff.1 hf] at hdel
    exact hdel

end Sys2Proof.Machine

/-! ## Failures, and the core between operations (R115 to R117, R130, R137) -/

namespace Sys2Proof.Machine

/-! ### What a failure records -/

/-- What the length byte at `pos` must be for each cause to be raised there (R116, R117). -/
def CauseAt (f : List Byte) (pos : Nat) : Cause → Prop
  | .truncatedFrame => 1 ≤ (f.getD pos 0#8).toNat ∧ (f.getD pos 0#8).toNat - 1 > f.length - (pos + 1)
  | .invalidLengthByte => f.getD pos 0#8 = 0#8 ∧ pos < f.length - 1

/-- A failing parse stops at the cursor whose byte fails one of the tests of R91; the blocks before it only move the
cursor, and keep it inside the input. -/
theorem parseGo_fail {f : List Byte} {k c pos : Nat} {acc : List Block} {cause : Cause} (hc : c ≤ f.length)
    (h : parseGo f k c acc = .fail cause pos) : pos < f.length ∧ CauseAt f pos cause := by
  induction k generalizing c acc with
  | zero => cases h
  | succ k ih =>
    rw [parseGo_succ] at h
    split_ifs at h with hend hterm hzero hshort
    · obtain ⟨rfl, rfl⟩ := Res.fail.inj h
      have hbyte : f.getD c 0#8 = 0#8 := BitVec.eq_of_toNat_eq hzero
      exact ⟨by omega, hbyte, by omega⟩
    · obtain ⟨rfl, rfl⟩ := Res.fail.inj h
      exact ⟨by omega, by omega, hshort⟩
    · exact ih (by omega) h

/-- Settles O46: the parse starts at the front of the input, and `dec` fails as it does. -/
theorem failureCausesExact : Obligations.FailureCausesExact := by
  intro f cause pos h
  obtain ⟨hpos, hcause⟩ := parseGo_fail (Nat.zero_le _) (dec_eq_fail_iff.1 h)
  exact ⟨hpos, by rintro rfl; exact hcause, by rintro rfl; exact hcause⟩

/-! ### The core's turn and the host's list of moves -/

/-- R130: between operations the core's turn holds every register and buffer. -/
theorem coreStep_of_ready {s : State} (h : isBusy s = false) : coreStep s = .next s := coreStep_next.2 (.inl ⟨h, rfl⟩)

/-- Settles O9: no move, a pass and a WAIT while BUSY are the core's turn, which holds between operations. -/
theorem coreHoldsBetweenOperations : Obligations.CoreHoldsBetweenOperations := by
  refine ⟨fun s hb => ⟨fun h => ?_, fun rest h => ?_, fun _ h => step_wait_ready h hb⟩,
    fun s hb => ⟨step_noMove, fun _ h => step_wait_busy h hb, fun _ h => step_move h⟩⟩
  · exact (step_noMove h).trans (coreStep_of_ready hb)
  · exact (step_move h).trans (coreStep_of_ready (s := { s with host := rest }) hb)

end Sys2Proof.Machine

/-! ## Completion, and what a BUSY core and the starts admit (R143, R144, R149) -/

namespace Sys2Proof.Machine

/-! ### Every started operation completes -/

/-- A bound on the turns that the operation in progress still takes: SIZE one, ENCODE one for each block and one for the
terminator, DECODE one for each byte from the cursor on and one for the end of the parse. Between operations it is 0. -/
def turnsLeft (s : State) : Nat :=
  match s.status with
  | .busy .size => 1
  | .busy .encode => blocksLeft s + 1
  | .busy .decode => s.ilen - s.rp + 1
  | .idle | .doneOk | .doneFail => 0

theorem turnsLeft_size {s : State} (h : s.status = .busy .size) : turnsLeft s = 1 := by simp [turnsLeft, h]

theorem turnsLeft_encode {s : State} (h : s.status = .busy .encode) : turnsLeft s = blocksLeft s + 1 := by
  simp [turnsLeft, h]

theorem turnsLeft_decode {s : State} (h : s.status = .busy .decode) : turnsLeft s = s.ilen - s.rp + 1 := by
  simp [turnsLeft, h]

theorem turnsLeft_of_ready {s : State} (h : isBusy s = false) : turnsLeft s = 0 := by
  unfold turnsLeft
  split <;> simp_all [isBusy]

/-- R76, R99: the operand bounds the turns of every operation. -/
theorem turnsLeft_le (s : State) : turnsLeft s ≤ s.ilen + 2 := by
  have hblocks := blocksLeft_le s
  unfold turnsLeft
  split <;> omega

/-- R76: a block brings the framer nearer to its end, and the terminator completes ENCODE. -/
theorem EncodeSound.turnsLeft_encoded {s : State} (h : EncodeSound s) (hs : s.status = .busy .encode) :
    turnsLeft (encoded s) < turnsLeft s := by
  rw [turnsLeft_encode hs]
  cases hd : s.fdone with
  | true =>
    rw [encoded_term hd, turnsLeft_of_ready rfl]
    exact Nat.succ_pos _
  | false =>
    have hless := frameNext_blocksLeft h.fp_le hd
    have hrunning : (encoded s).status = .busy .encode := by
      rw [encoded_block hd]
      exact hs
    rw [frameNext_snd s] at hless
    rw [turnsLeft_encode hrunning, encoded_block hd]
    exact Nat.succ_lt_succ hless

/-- R99: an accepted block moves the cursor by at least 1 inside the operand, and every other item completes DECODE. -/
theorem DecodeSound.turnsLeft_parsed {s : State} (h : DecodeSound s) (hs : s.status = .busy .decode) :
    turnsLeft (parsed s) < turnsLeft s := by
  rw [turnsLeft_decode hs]
  rcases parsed_cases s with hp | ⟨cause, hp⟩ | ⟨n, hn, hin, hp⟩ <;> rw [hp]
  · rw [turnsLeft_of_ready rfl]
    exact Nat.succ_pos _
  · rw [turnsLeft_of_ready rfl]
    exact Nat.succ_pos _
  · have hinside := hin h.rp_le
    have hleft : turnsLeft (accepted (blockAtCursor n s) s) = s.ilen - (s.rp + n) + 1 := turnsLeft_decode hs
    omega

theorem turnsLeft_advance {s : State} (h : Sound s) (hb : isBusy s = true) :
    turnsLeft (advance s) < turnsLeft s := by
  rcases advance_cases s with ⟨hr, -⟩ | ⟨hs, ha⟩ | ⟨hs, ha⟩ | ⟨hs, ha⟩
  · exact absurd (hr.symm.trans hb) Bool.false_ne_true
  · rw [ha, turnsLeft_size hs, turnsLeft_of_ready rfl]
    exact Nat.one_pos
  · rw [ha]
    exact (h.running_encode hs).1.turnsLeft_encoded hs
  · rw [ha]
    exact (h.running_decode hs).1.turnsLeft_parsed hs

/-- R34: with no move of the host left, a sound state's step is the core's turn. -/
theorem step_eq_advance {s : State} (h : Sound s) (hh : s.host = []) : step s = .next (advance s) := by
  obtain ⟨t, ht⟩ := h.coreStep_answers
  rw [step_noMove hh, ht, coreStep_eq_advance ht]

/-- As many steps as there are turns left, or more, end the operation in progress. -/
theorem Sound.steps_complete {k : Nat} {s : State} (h : Sound s) (hh : s.host = []) (hk : turnsLeft s ≤ k) :
    ∃ t, steps k s = .next t ∧ isBusy t = false := by
  induction k generalizing s with
  | zero =>
    cases hb : isBusy s with
    | false => exact ⟨s, rfl, hb⟩
    | true => exact absurd (turnsLeft_advance h hb) (by omega)
  | succ k ih =>
    cases hb : isBusy s with
    | false => exact ⟨s, steps_held hh hb _, hb⟩
    | true =>
      have hless := turnsLeft_advance h hb
      obtain ⟨t, ht, hready⟩ := ih h.advance ((advance_frame s).host.trans hh) (by omega)
      exact ⟨t, steps_succ_next.2 ⟨_, step_eq_advance h hh, ht⟩, hready⟩

/-- Settles O56: the operand bounds the turns left, and every turn takes one of them. -/
theorem startedOperationCompletes : Obligations.StartedOperationCompletes :=
  fun s h _ hh => h.steps_complete hh (turnsLeft_le s)

/-! ### The host while the core is BUSY -/

theorem unlessBusy_of_busy {s : State} (h : isBusy s = true) (k : Out) :
    unlessBusy s k = .refused .hostMoveWhileBusy := if_pos h

theorem ifReady_of_busy {s : State} (h : isBusy s = true) (k : Out) :
    ifReady s k = .refused .commandWhileBusy := if_pos h

/-- R129, R57: no command starts while the core is BUSY, and the reserved one never does. -/
theorem command_refused_of_busy {s : State} (h : isBusy s = true) (op : BitVec 2) :
    ∃ r, exec (decodeCmd op) s = .refused r := by
  rcases decodeCmd_cases op with hd | hd | hd | hd <;> rw [hd]
  · exact ⟨_, ifReady_of_busy h _⟩
  · exact ⟨_, ifReady_of_busy h _⟩
  · exact ⟨_, ifReady_of_busy h _⟩
  · exact ⟨_, rfl⟩

/-- R144: of the registers only `STATUS` is read while the core is BUSY. -/
theorem hostRead_of_busy {s : State} (h : isBusy s = true) {r : ReadReg} (hr : r ≠ .status) :
    hostRead r s = .refused .hostMoveWhileBusy := by
  cases r with
  | status => exact absurd rfl hr
  | olen | sres | err | epos | ilen | sarg => exact unlessBusy_of_busy h _

/-- Settles O12, move by move; BUSY has the code 1. -/
theorem busyAllowsOnlyStatusReads : Obligations.BusyAllowsOnlyStatusReads := by
  refine fun s m rest hb h => ⟨fun hread hwait hpass hrst => ?_, ?_⟩
  · rw [step_move h]
    cases m with
    | wrIbuf | wrIlen | wrSarg | rdObuf | rdIbuf => exact ⟨_, unlessBusy_of_busy hb _⟩
    | cmd op => exact command_refused_of_busy (s := { s with host := rest }) hb op
    | rd r => exact ⟨_, hostRead_of_busy (s := { s with host := rest }) hb fun hr => hread (congrArg _ hr)⟩
    | wait => exact absurd rfl hwait
    | pass => exact absurd rfl hpass
    | rst => exact absurd rfl hrst
  · rintro rfl
    rw [step_readStatus h, statusCode_of_code (.inr (.inl ⟨isBusy_iff.1 hb, rfl⟩))]

/-! ### The contract of a start -/

theorem next_or_refused {o : Out} (h : ∀ r, o ≠ .fault r) : (∃ t, o = .next t) ∨ ∃ r, o = .refused r := by
  cases o with
  | next t => exact .inl ⟨t, rfl⟩
  | fault r => exact absurd rfl (h r)
  | refused r => exact .inr ⟨r, rfl⟩

/-- R45: each of the four commands has a word. -/
theorem command_eq_decodeCmd {i : Instr} (h : i = .size ∨ i = .encode ∨ i = .decode ∨ i = .cmdReserved) :
    ∃ op, i = decodeCmd op := by
  rcases h with rfl | rfl | rfl | rfl
  · exact ⟨0#2, rfl⟩
  · exact ⟨1#2, rfl⟩
  · exact ⟨2#2, rfl⟩
  · exact ⟨3#2, rfl⟩

/-- Settles O14: the guards are those of each start's inversion lemma, and no command is a fault. -/
theorem startsExactlyWithinContract : Obligations.StartsExactlyWithinContract := by
  refine fun s => ⟨?_, ?_, ?_, fun i hi => ?_, fun ⟨_, h⟩ => execCmdReserved_next h⟩
  · simp only [execSize_next, exists_and_left, exists_eq, and_true]
  · simp only [execEncode_next, exists_and_left, exists_eq, and_true]
  · simp only [execDecode_next, exists_and_left, exists_eq, and_true]
  · obtain ⟨op, rfl⟩ := command_eq_decodeCmd hi
    exact next_or_refused (command_ne_fault op s)

end Sys2Proof.Machine
